-- ==== Sys2Proof/Word.lean ====
section
/-! DEFINITION. The word types of the machine (00_scope.md R5, R7): all values are unsigned, bit 0 is the least
significant bit, and there is no signed quantity anywhere. -/

namespace Sys2Proof

/-- A register, a timer, an immediate `kk` or one cell of memory: 8 bits (R5, R21, R28, R50). -/
abbrev Byte := BitVec 8

/-- An instruction word, `I`, `pc` and a stack entry: 16 bits (R5, R7, R25). -/
abbrev Word := BitVec 16

/-- A register index, the fields `x` and `y` of R81: every one of the 16 values names a register (R21, R82). -/
abbrev Reg := BitVec 4

/-- The field `n` of R81: a count of sprite bytes, 0 to 15 (R82). -/
abbrev Nibble := BitVec 4

/-- The field `nnn` of R81: a 12-bit unsigned byte address (R82). -/
abbrev Addr12 := BitVec 12

/-- VF is `V[15]`, an ordinary register and also the flag (R22). -/
abbrev vf : Reg := 0xF#4

/-- `zext_16` of R7, of a 12-bit address. -/
abbrev zext16 (a : Addr12) : Word := a.setWidth 16

end Sys2Proof
end

