-- ==== Sys2Proof/Syntax.lean ====
section
/-! DEFINITION. The instructions: one constructor per row of spec/opcode_table.json, in the order of the table of
30_encoding.md R84, then the three refused rows of R88, then the NOP row of R87. The operands are the row's fields
(R81). `shr` keeps the field `y` that its encoding has and its meaning ignores (R86), and `nop` keeps the unrecognized
word itself, so that an instruction determines its word (log entry 8). -/

namespace Sys2Proof

inductive Instr where
  /-- `CLS`, 00E0 (R170). -/
  | cls
  /-- `RET`, 00EE (R130). -/
  | ret
  /-- `JP addr`, 1nnn (R131). -/
  | jp (nnn : Addr12)
  /-- `CALL addr`, 2nnn (R132). -/
  | call (nnn : Addr12)
  /-- `SE Vx, byte`, 3xkk (R133). -/
  | se (x : Reg) (kk : Byte)
  /-- `SNE Vx, byte`, 4xkk (R134). -/
  | sne (x : Reg) (kk : Byte)
  /-- `LD Vx, byte`, 6xkk (R140). -/
  | ldByte (x : Reg) (kk : Byte)
  /-- `ADD Vx, byte`, 7xkk (R141). -/
  | addByte (x : Reg) (kk : Byte)
  /-- `ADD Vx, Vy`, 8xy4 (R142). -/
  | addReg (x y : Reg)
  /-- `SUB Vx, Vy`, 8xy5 (R143). -/
  | subReg (x y : Reg)
  /-- `AND Vx, Vy`, 8xy2 (R144). -/
  | andReg (x y : Reg)
  /-- `XOR Vx, Vy`, 8xy3 (R145). -/
  | xorReg (x y : Reg)
  /-- `SHR Vx`, 8xy6 (R146); `y` is in the word and is not used (R86). -/
  | shr (x y : Reg)
  /-- `LD Vx, Vy`, 8xy0 (R147). -/
  | ldReg (x y : Reg)
  /-- `LD I, addr`, Annn (R160). -/
  | ldI (nnn : Addr12)
  /-- `ADD I, Vx`, Fx1E (R161). -/
  | addI (x : Reg)
  /-- `LD [I], Vx`, Fx55 (R162). -/
  | storeRegs (x : Reg)
  /-- `LD Vx, [I]`, Fx65 (R163). -/
  | loadRegs (x : Reg)
  /-- `DRW Vx, Vy, n`, Dxyn (R171). -/
  | drw (x y : Reg) (n : Nibble)
  /-- `SKP Vx`, Ex9E (R185). -/
  | skp (x : Reg)
  /-- `SKNP Vx`, ExA1 (R186). -/
  | sknp (x : Reg)
  /-- `LD Vx, K`, Fx0A (R187). -/
  | ldKey (x : Reg)
  /-- `LD DT, Vx`, Fx15 (R188). -/
  | ldDtVx (x : Reg)
  /-- `LD Vx, DT`, Fx07 (R189). -/
  | ldVxDt (x : Reg)
  /-- `LD ST, Vx`, Fx18 (R190). -/
  | ldStVx (x : Reg)
  /-- The undescribed family-8 slot 8xy1 (R88, R150). -/
  | unnamed8xy1 (x y : Reg)
  /-- The undescribed family-8 slot 8xy7 (R88, R150). -/
  | unnamed8xy7 (x y : Reg)
  /-- The undescribed family-8 slot 8xyE (R88, R150). -/
  | unnamed8xyE (x y : Reg)
  /-- An unrecognized word `w` (R87, R116). -/
  | nop (w : Word)
  deriving DecidableEq, Repr

end Sys2Proof
end

