-- ==== Sys2Proof/Decode.lean ====
section
/-! DEFINITION. Encoding (30_encoding.md): the fields of R81, the opcode map of R84 and R88 as a table of (match, mask)
rows, the decoder of R85, the decoding of a byte sequence (R80, R51), and the encoder. The decoder reads no machine
state (R83). The opcode numbers other than 00E0, 1nnn and Dxyn are the spec's general-knowledge numbers
(93_implementation_defined.md G1), taken from the spec as they stand (log entry 9). -/

namespace Sys2Proof

/-! ### Fields (R81): `w[hi:lo]` of R7 -/

/-- `op = w[15:12]`, the primary dispatch key. -/
def fieldOp (w : Word) : Nibble := w.extractLsb' 12 4

/-- `x = w[11:8]`. -/
def fieldX (w : Word) : Reg := w.extractLsb' 8 4

/-- `y = w[7:4]`. -/
def fieldY (w : Word) : Reg := w.extractLsb' 4 4

/-- `n = w[3:0]`. -/
def fieldN (w : Word) : Nibble := w.extractLsb' 0 4

/-- `kk = w[7:0]`. -/
def fieldKK (w : Word) : Byte := w.extractLsb' 0 8

/-- `nnn = w[11:0]`. -/
def fieldNNN (w : Word) : Addr12 := w.extractLsb' 0 12

/-! ### The opcode map (R84, R88) -/

/-- One row of the opcode map: the mnemonic as spec/opcode_table.json spells it, and the row's `match` and `mask`. -/
structure OpcodeRow where
  mnemonic : String
  value    : Word
  mask     : Word
  deriving DecidableEq, Repr

/-- "the word w selects the row exactly when `w & mask = match`" (R84). -/
def OpcodeRow.selects (row : OpcodeRow) (w : Word) : Bool := w &&& row.mask == row.value

/-- The 25 named instructions, R84, in its order. -/
def namedRows : List OpcodeRow :=
  [ ⟨"CLS",           0x00E0#16, 0xFFFF#16⟩, ⟨"RET",          0x00EE#16, 0xFFFF#16⟩,
    ⟨"JP_addr",       0x1000#16, 0xF000#16⟩, ⟨"CALL_addr",    0x2000#16, 0xF000#16⟩,
    ⟨"SE_Vx__byte",   0x3000#16, 0xF000#16⟩, ⟨"SNE_Vx__byte", 0x4000#16, 0xF000#16⟩,
    ⟨"LD_Vx__byte",   0x6000#16, 0xF000#16⟩, ⟨"ADD_Vx__byte", 0x7000#16, 0xF000#16⟩,
    ⟨"ADD_Vx__Vy",    0x8004#16, 0xF00F#16⟩, ⟨"SUB_Vx__Vy",   0x8005#16, 0xF00F#16⟩ ] ++
  [ ⟨"AND_Vx__Vy",    0x8002#16, 0xF00F#16⟩, ⟨"XOR_Vx__Vy",   0x8003#16, 0xF00F#16⟩,
    ⟨"SHR_Vx",        0x8006#16, 0xF00F#16⟩, ⟨"LD_Vx__Vy",    0x8000#16, 0xF00F#16⟩,
    ⟨"LD_I__addr",    0xA000#16, 0xF000#16⟩, ⟨"ADD_I__Vx",    0xF01E#16, 0xF0FF#16⟩,
    ⟨"LD__I___Vx",    0xF055#16, 0xF0FF#16⟩, ⟨"LD_Vx___I",    0xF065#16, 0xF0FF#16⟩,
    ⟨"DRW_Vx__Vy__n", 0xD000#16, 0xF000#16⟩, ⟨"SKP_Vx",       0xE09E#16, 0xF0FF#16⟩ ] ++
  [ ⟨"SKNP_Vx",       0xE0A1#16, 0xF0FF#16⟩, ⟨"LD_Vx__K",     0xF00A#16, 0xF0FF#16⟩,
    ⟨"LD_DT__Vx",     0xF015#16, 0xF0FF#16⟩, ⟨"LD_Vx__DT",    0xF007#16, 0xF0FF#16⟩,
    ⟨"LD_ST__Vx",     0xF018#16, 0xF0FF#16⟩ ]

/-- The three refused slots of family 8, R88. -/
def refusedRows : List OpcodeRow :=
  [ ⟨"UNNAMED_8XY1", 0x8001#16, 0xF00F#16⟩, ⟨"UNNAMED_8XY7", 0x8007#16, 0xF00F#16⟩,
    ⟨"UNNAMED_8XYE", 0x800E#16, 0xF00F#16⟩ ]

/-- Every row that is not the fallback. -/
def opcodeRows : List OpcodeRow := namedRows ++ refusedRows

/-- "A word is unrecognized when it selects no row of rule R84 and no row of rule R88" (R87). -/
def unrecognized (w : Word) : Bool := !(opcodeRows.any fun row => row.selects w)

/-! ### The decoder (R85) -/

/-- Family 0: the whole word is matched (R85, R86). -/
def decodeFamily0 (w : Word) : Instr :=
  if w = 0x00E0#16 then .cls else if w = 0x00EE#16 then .ret else .nop w

/-- Family 8, keyed by the low nibble (R83, R85). -/
def decodeFamily8 (w : Word) : Instr :=
  match fieldN w with
  | 0x0#4 => .ldReg (fieldX w) (fieldY w)
  | 0x1#4 => .unnamed8xy1 (fieldX w) (fieldY w)
  | 0x2#4 => .andReg (fieldX w) (fieldY w)
  | 0x3#4 => .xorReg (fieldX w) (fieldY w)
  | 0x4#4 => .addReg (fieldX w) (fieldY w)
  | 0x5#4 => .subReg (fieldX w) (fieldY w)
  | 0x6#4 => .shr (fieldX w) (fieldY w)
  | 0x7#4 => .unnamed8xy7 (fieldX w) (fieldY w)
  | 0xE#4 => .unnamed8xyE (fieldX w) (fieldY w)
  | _     => .nop w

/-- Family E, keyed by the low byte (R83, R85). -/
def decodeFamilyE (w : Word) : Instr :=
  match fieldKK w with
  | 0x9E#8 => .skp (fieldX w)
  | 0xA1#8 => .sknp (fieldX w)
  | _      => .nop w

/-- Family F, keyed by the low byte (R83, R85). -/
def decodeFamilyF (w : Word) : Instr :=
  match fieldKK w with
  | 0x07#8 => .ldVxDt (fieldX w)
  | 0x0A#8 => .ldKey (fieldX w)
  | 0x15#8 => .ldDtVx (fieldX w)
  | 0x18#8 => .ldStVx (fieldX w)
  | 0x1E#8 => .addI (fieldX w)
  | 0x55#8 => .storeRegs (fieldX w)
  | 0x65#8 => .loadRegs (fieldX w)
  | _      => .nop w

/-- `Decode(w)`, R85: total, never an error (R83). -/
def decode (w : Word) : Instr :=
  match fieldOp w with
  | 0x0#4 => decodeFamily0 w
  | 0x1#4 => .jp (fieldNNN w)
  | 0x2#4 => .call (fieldNNN w)
  | 0x3#4 => .se (fieldX w) (fieldKK w)
  | 0x4#4 => .sne (fieldX w) (fieldKK w)
  | 0x6#4 => .ldByte (fieldX w) (fieldKK w)
  | 0x7#4 => .addByte (fieldX w) (fieldKK w)
  | 0x8#4 => decodeFamily8 w
  | 0xA#4 => .ldI (fieldNNN w)
  | 0xD#4 => .drw (fieldX w) (fieldY w) (fieldN w)
  | 0xE#4 => decodeFamilyE w
  | 0xF#4 => decodeFamilyF w
  | _     => .nop w

/-! ### Bytes and words (R51, R80) -/

/-- The word of two bytes, big-endian: the first is bits 15 to 8 (R51). -/
def wordOfBytes (hi lo : Byte) : Word := hi ++ lo

/-- The byte of a word that lies at the lower address (R51). -/
def highByte (w : Word) : Byte := w.extractLsb' 8 8

/-- The byte of a word that lies at the higher address (R51). -/
def lowByte (w : Word) : Byte := w.extractLsb' 0 8

/-- Why a byte sequence is not decoded. -/
inductive DecodeError where
  /-- Fewer than the two bytes every instruction has (R80). Safe: the machine itself fetches two bytes or faults (R112). -/
  | truncated
  deriving DecidableEq, Repr

/-- The instruction at the head of a byte sequence and the bytes after it. -/
def decodeBytes : List Byte → Except DecodeError (Instr × List Byte)
  | hi :: lo :: rest => .ok (decode (wordOfBytes hi lo), rest)
  | _ => .error .truncated

/-! ### The encoder, from the patterns of R84 and R88 -/

/-- Format NNN of R81. -/
def encodeNNN (op : Nibble) (nnn : Addr12) : Word := op ++ nnn

/-- Format XKK of R81; also format X, whose low byte is fixed. -/
def encodeXKK (op : Nibble) (x : Reg) (kk : Byte) : Word := op ++ (x ++ kk : BitVec 12)

/-- Format XYN of R81; also format XY, whose low nibble is fixed. -/
def encodeXYN (op : Nibble) (x y : Reg) (n : Nibble) : Word := op ++ (x ++ (y ++ n : BitVec 8) : BitVec 12)

/-- The word of an instruction. -/
def encode : Instr → Word
  | .cls => 0x00E0#16
  | .ret => 0x00EE#16
  | .jp nnn => encodeNNN 0x1#4 nnn
  | .call nnn => encodeNNN 0x2#4 nnn
  | .se x kk => encodeXKK 0x3#4 x kk
  | .sne x kk => encodeXKK 0x4#4 x kk
  | .ldByte x kk => encodeXKK 0x6#4 x kk
  | .addByte x kk => encodeXKK 0x7#4 x kk
  | .addReg x y => encodeXYN 0x8#4 x y 0x4#4
  | .subReg x y => encodeXYN 0x8#4 x y 0x5#4
  | .andReg x y => encodeXYN 0x8#4 x y 0x2#4
  | .xorReg x y => encodeXYN 0x8#4 x y 0x3#4
  | .shr x y => encodeXYN 0x8#4 x y 0x6#4
  | .ldReg x y => encodeXYN 0x8#4 x y 0x0#4
  | .ldI nnn => encodeNNN 0xA#4 nnn
  | .addI x => encodeXKK 0xF#4 x 0x1E#8
  | .storeRegs x => encodeXKK 0xF#4 x 0x55#8
  | .loadRegs x => encodeXKK 0xF#4 x 0x65#8
  | .drw x y n => encodeXYN 0xD#4 x y n
  | .skp x => encodeXKK 0xE#4 x 0x9E#8
  | .sknp x => encodeXKK 0xE#4 x 0xA1#8
  | .ldKey x => encodeXKK 0xF#4 x 0x0A#8
  | .ldDtVx x => encodeXKK 0xF#4 x 0x15#8
  | .ldVxDt x => encodeXKK 0xF#4 x 0x07#8
  | .ldStVx x => encodeXKK 0xF#4 x 0x18#8
  | .unnamed8xy1 x y => encodeXYN 0x8#4 x y 0x1#4
  | .unnamed8xy7 x y => encodeXYN 0x8#4 x y 0x7#4
  | .unnamed8xyE x y => encodeXYN 0x8#4 x y 0xE#4
  | .nop w => w

/-- The mnemonic of the instruction's row of spec/opcode_table.json. -/
def Instr.mnemonic : Instr → String
  | .cls => "CLS"
  | .ret => "RET"
  | .jp _ => "JP_addr"
  | .call _ => "CALL_addr"
  | .se _ _ => "SE_Vx__byte"
  | .sne _ _ => "SNE_Vx__byte"
  | .ldByte _ _ => "LD_Vx__byte"
  | .addByte _ _ => "ADD_Vx__byte"
  | .addReg _ _ => "ADD_Vx__Vy"
  | .subReg _ _ => "SUB_Vx__Vy"
  | .andReg _ _ => "AND_Vx__Vy"
  | .xorReg _ _ => "XOR_Vx__Vy"
  | .shr _ _ => "SHR_Vx"
  | .ldReg _ _ => "LD_Vx__Vy"
  | .ldI _ => "LD_I__addr"
  | .addI _ => "ADD_I__Vx"
  | .storeRegs _ => "LD__I___Vx"
  | .loadRegs _ => "LD_Vx___I"
  | .drw _ _ _ => "DRW_Vx__Vy__n"
  | .skp _ => "SKP_Vx"
  | .sknp _ => "SKNP_Vx"
  | .ldKey _ => "LD_Vx__K"
  | .ldDtVx _ => "LD_DT__Vx"
  | .ldVxDt _ => "LD_Vx__DT"
  | .ldStVx _ => "LD_ST__Vx"
  | .unnamed8xy1 _ _ => "UNNAMED_8XY1"
  | .unnamed8xy7 _ _ => "UNNAMED_8XY7"
  | .unnamed8xyE _ _ => "UNNAMED_8XYE"
  | .nop _ => "NOP"

/-! ### The opcode table's numbering of bits -/

/-- The word whose bits, numbered as spec/opcode_table.json numbers them, are the low `nbits` bits of `w`. Every
instruction is one 16-bit word (R80), so every bit above `nbits` is 0. -/
def tableWord (nbits w : Nat) : Word := BitVec.ofNat 16 (w % 2 ^ nbits)

/-- That word as the two bytes the hardware stores, the first at the lowest address (R51). -/
def tableBytes (nbits w : Nat) : List Byte := [highByte (tableWord nbits w), lowByte (tableWord nbits w)]

/-- The instruction the decoder reads from a table word; none for more bits than an instruction has (R80). -/
def decodeTableWord (nbits w : Nat) : Option Instr :=
  if nbits ≤ 16 then (decodeBytes (tableBytes nbits w)).toOption.map Prod.fst else none

end Sys2Proof
end

