-- ==== Sys2Proof/Config.lean ====
section
/-! DEFINITION. The sizes of the machine (00_scope.md R5) and the one parameter of R6 that is a value, `MEM_INIT`.
The other three parameters of R6 are policies and are fixed at the spec's default where they act:
`VF_DEST_ORDER = flag_last` in `State.writeResultThenFlag` (Machine/Operands.lean), `UNNAMED_ALU_POLICY = refuse` in
`execUnnamed8xy1`, `execUnnamed8xy7`, `execUnnamed8xyE` (Machine/Alu.lean), `KEY_INDEX_POLICY = fault` in
`withKeyIndex` (Machine/Operands.lean). The spec leaves no value open, so this file holds no free value. -/

namespace Sys2Proof.Config

/-- `MEM_SIZE` (R5): addresses 0x000 to 0xFFF. -/
@[simp] abbrev memSize : Nat := 4096

/-- `LOAD_ORIGIN` (R5, R56). -/
@[simp] abbrev loadOrigin : Nat := 0x200

/-- `MAX_PROGRAM_BYTES` (R5): 4096 - 0x200. -/
@[simp] abbrev maxProgramBytes : Nat := 3584

/-- `STACK_DEPTH` (R5). -/
@[simp] abbrev stackDepth : Nat := 16

/-- `MEM_INIT` (R6, R57): every byte is 0x00 after RESET and before LOAD. No font is preloaded. -/
abbrev memInit : Byte := 0x00#8

end Sys2Proof.Config
end

