-- ==== Sys2Proof/Machine/State.lean ====
section
/-! DEFINITION. The state of the block (10_state.md R20), the five events that may change it (40_step_cycle.md R110),
the program-counter directives (R113), the fault kinds (60_exceptions.md R205), the ways a step of the MODEL can stop,
and the state after RESET (70_reset_and_hazards.md R231). -/

namespace Sys2Proof.Machine

/-- Memory as data (20_memory.md R32, R50): the bytes that differ from `MEM_INIT`, by strictly rising address. -/
abbrev Memory := List Host.Cell

/-- The framebuffer `FB[r][c]`, row 0 to 31, column 0 to 63; `true` is "on" (R29). -/
abbrev Screen := Vector (Vector Bool 64) 32

/-- The five events of R110, the only things that change the block's state. -/
inductive Event where
  /-- RESET, issued by the host in any state (R230). -/
  | reset
  /-- LOAD(bytes), issued by the host once after RESET (R233, R234). -/
  | load (bytes : List Byte)
  /-- STEP, one fetch-decode-execute cycle (R111). -/
  | step
  /-- TICK, one decrement of the timers (R192). -/
  | tick
  /-- SETKEYS(k): the whole snapshot is replaced; bit `j` of `k` is key `j` (R119). -/
  | setKeys (k : BitVec 16)
  deriving DecidableEq, Repr

/-- What a handler tells the program counter to do (R113). -/
inductive Directive where
  | next
  | skip
  | jump (target : Word)
  | wait
  deriving DecidableEq, Repr

/-- The five fault conditions of R205; code 0 of the latch is "no fault". -/
inductive FaultKind where
  /-- `CALL` with 16 return addresses held (R201). -/
  | stackOverflow
  /-- `RET` with none held (R202). -/
  | stackUnderflow
  /-- A fetch that would need a byte outside memory (R203). -/
  | fetchRange
  /-- A sprite read, register store or register load whose last byte is outside memory (R204). -/
  | dataRange
  /-- `SKP` or `SKNP` of a key number above 15 (R207). -/
  | keyIndex
  deriving DecidableEq, Repr

/-- The whole state. The first eleven fields are the block's, R20, and nothing of R20 is left out; the last three are
the MODEL's own (log entries 2, 3 and 4): they make the redraw output, the "one LOAD, before the first STEP" rule and
the environment's choice of events plain data. -/
structure State where
  /-- `V[0..15]` (R21); `V[15]` is VF, the flag (R22, R34). -/
  v        : Vector Byte 16
  /-- `I`, the index register (R25). -/
  i        : Word
  /-- `pc` (R23, R24). -/
  pc       : Word
  /-- `sp`, the number of return addresses held and the index of the next free entry (R26). -/
  sp       : Byte
  /-- `stack[0..15]`, outside the address space (R27). -/
  stack    : Vector Word 16
  /-- `DT`, the delay timer (R28). -/
  dt       : Byte
  /-- `ST`, the sound timer (R28). -/
  st       : Byte
  /-- The 4096 bytes of memory (R32, R57). -/
  mem      : Memory
  /-- `FB` (R29). -/
  fb       : Screen
  /-- `keys[0..15]`, the snapshot; bit `j` is key `j` (R30). -/
  keys     : BitVec 16
  /-- The fault latch, 3 bits (R31): 0, or the code of the fault that stopped the machine. -/
  fault    : BitVec 3
  /-- The `redraw` output of the last STEP (R115). The model's own: the spec's output is not stored. -/
  redraw   : Bool
  /-- A LOAD or a STEP has happened since RESET, so no LOAD may follow (R234). The model's own. -/
  loadDone : Bool
  /-- The events the environment still issues, the next one first (R118); when none is left the next is a STEP. The
  model's own. -/
  events   : List Event
  deriving DecidableEq, Repr

/-- How a step of the model can stop with a fault. The machine's own faults (R205) are NOT here: the spec describes
their entry (R206), so a step takes them and answers a next state. -/
inductive Fault where
  /-- Raised by `execCall` and `execRet` in states where `sp` is 17 or more: R26 says these are never reached, and the
  stack has no entry for them to write or read. Safe: no run from RESET reaches it (log entry 7). -/
  | stackPointerOutOfRange
  deriving DecidableEq, Repr

/-- Why a step of the model is refused. -/
inductive Refusal where
  /-- `exec`'s arm for an instruction that has no meaning yet; no arm is one now. Safe. -/
  | notModelled (mnemonic : String)
  /-- The meaning of the word 8xy1: "a model must refuse a program that executes one" (R88, R150). Safe. -/
  | unnamedAlu8xy1
  /-- The meaning of the word 8xy7 (R88, R150). Safe. -/
  | unnamedAlu8xy7
  /-- The meaning of the word 8xyE (R88, R150). Safe. -/
  | unnamedAlu8xyE
  /-- A LOAD of more than 3584 bytes: "a model refuses a launch that breaks it" (R233). Safe. -/
  | loadTooLong
  /-- A LOAD that is not the first since RESET or comes after a STEP: "a model has no such move" (R234). Safe. -/
  | loadOutOfOrder
  deriving DecidableEq, Repr

/-- The state after RESET, R231: every field at the value the spec's table gives, memory with nothing listed, and the
model's own fields at the values log entries 2, 3 and 4 name. -/
def State.reset : State where
  v        := Vector.replicate 16 0x00#8
  i        := 0x0000#16
  pc       := 0x0200#16
  sp       := 0x00#8
  stack    := Vector.replicate 16 0x0000#16
  dt       := 0x00#8
  st       := 0x00#8
  mem      := []
  fb       := Vector.replicate 32 (Vector.replicate 64 false)
  keys     := 0x0000#16
  fault    := 0#3
  redraw   := false
  loadDone := false
  events   := []

end Sys2Proof.Machine
end

