-- ==== Sys2Proof/Machine/Ops.lean ====
section
/-! DEFINITION. The operations over memory, registers, stack and screen that the meanings share, the application of a
directive (40_step_cycle.md R111 stage 4, R113), and taking a fault (60_exceptions.md R206). There is no return from a
fault: "There is no return-from-fault instruction" (R211), only the RESET event (Machine/Events.lean). -/

namespace Sys2Proof.Machine

/-- The three outcomes, at this machine's types. -/
abbrev Result := Host.Outcome State Fault Refusal

/-! ### Memory: `MemRead(a, 1)` and `MemWrite(a, 1, v)` (R50) -/

/-- What an address that is not listed reads as: `MEM_INIT` (R57). -/
def Memory.unlisted (_a : Nat) : Byte := Config.memInit

/-- `MemRead(a, 1)`. Every rule checks the range before it reads (R50, R58), so no address above 0xFFF is asked for. -/
def Memory.read : Memory → Nat → Byte
  | [], a => Memory.unlisted a
  | (b, w) :: rest, a => if a = b then w else Memory.read rest a

/-- The list without the entry of address `a`. -/
def Memory.erase : Memory → Nat → Memory
  | [], _ => []
  | (b, w) :: rest, a => if a = b then Memory.erase rest a else (b, w) :: Memory.erase rest a

/-- The list with an entry put in before the first entry of a higher address. -/
def Memory.insert : Memory → Nat → Byte → Memory
  | [], a, x => [(a, x)]
  | (b, w) :: rest, a, x => if a < b then (a, x) :: (b, w) :: rest else (b, w) :: Memory.insert rest a x

/-- `MemWrite(a, 1, v)`, keeping the canonical form: the value an unlisted address reads as is not listed. Nothing is
written outside the 4096 bytes (R58: "never performed and never wrapped"). -/
def Memory.write (m : Memory) (a : Nat) (x : Byte) : Memory :=
  if a < Config.memSize then
    if x = Memory.unlisted a then Memory.erase m a else Memory.insert (Memory.erase m a) a x
  else m

/-- Every listed address is above `low`, inside memory and rising, and no entry equals what an unlisted address reads as. -/
def Memory.wfAbove : (low : Nat) → Memory → Bool
  | _, [] => true
  | low, (b, w) :: rest =>
    decide (low ≤ b) && decide (b < Config.memSize) && decide (w ≠ Memory.unlisted b) && Memory.wfAbove (b + 1) rest

/-- The canonical form: addresses strictly rising and below 4096, no entry equal to what an unlisted address reads as. -/
def Memory.wf (m : Memory) : Bool := Memory.wfAbove 0 m

/-- The bytes at `a`, `a + 1`, ..., `a + n - 1`, in that order (R53). -/
def Memory.readBytes (m : Memory) (a n : Nat) : List Byte := (List.range n).map fun k => m.read (a + k)

/-- Bytes written to `a`, `a + 1`, ... in that order (R233). -/
def Memory.writeBytes (m : Memory) (a : Nat) : List Byte → Memory
  | [] => m
  | b :: bs => Memory.writeBytes (m.write a b) (a + 1) bs

/-! ### General registers: `V[i]` and `V[i] <- v` (R21) -/

/-- `V[r]`. No register is hardwired (R21). -/
def State.readV (s : State) (r : Reg) : Byte := s.v[r.toNat]'r.isLt

/-- `V[r] <- b`. -/
def State.writeV (s : State) (r : Reg) (b : Byte) : State := { s with v := s.v.set r.toNat b r.isLt }

/-! ### The other registers of the block -/

/-- `I <- a` (R25). -/
def State.writeI (s : State) (a : Word) : State := { s with i := a }

/-- `DT <- b` (R28). -/
def State.writeDT (s : State) (b : Byte) : State := { s with dt := b }

/-- `ST <- b` (R28). -/
def State.writeST (s : State) (b : Byte) : State := { s with st := b }

/-- Memory replaced, by an instruction that stores. -/
def State.writeMem (s : State) (m : Memory) : State := { s with mem := m }

/-- The framebuffer replaced, by `clear` or `draw`. -/
def State.writeFB (s : State) (fb : Screen) : State := { s with fb := fb }

/-! ### The return stack (R26, R27) -/

/-- `stack[sp] <- a` and then `sp <- sp + 1` (R132), for an `sp` that names an entry. -/
def State.push (s : State) (a : Word) (h : s.sp.toNat < 16) : State :=
  { s with stack := s.stack.set s.sp.toNat a h, sp := s.sp + 1 }

/-- The entry `RET` returns through: `stack[sp - 1]`, for the `sp` before the instruction (R130); none where the stack
has no such entry. -/
def State.top (s : State) : Option Word := s.stack[s.sp.toNat - 1]?

/-- `sp <- sp - 1`; the entry is not erased (R130). -/
def State.drop (s : State) : State := { s with sp := s.sp - 1 }

/-! ### Transfers between registers and memory (R162, R163) -/

/-- Memory after `MemWrite(base + k, 1, V[k])` for k from 0 to `n - 1`, in that order. -/
def State.storedRegs (s : State) (base : Nat) : (n : Nat) → Memory
  | 0 => s.mem
  | n + 1 => (State.storedRegs s base n).write (base + n) (s.readV (BitVec.ofNat 4 n))

/-- The state after `V[k] <- MemRead(base + k, 1)` for k from 0 to `n - 1`, in that order. -/
def State.loadedRegs (s : State) (base : Nat) : (n : Nat) → State
  | 0 => s
  | n + 1 => (State.loadedRegs s base n).writeV (BitVec.ofNat 4 n) (s.mem.read (base + n))

/-! ### The display primitives (44_display.md R172, R173) -/

/-- The pixel `FB[r][c]`. -/
def Screen.pixel (fb : Screen) (r : Fin 32) (c : Fin 64) : Bool := fb[r.val][c.val]

/-- `FB[r][c] <- FB[r][c] ^ bit`. -/
def Screen.toggle (fb : Screen) (r : Fin 32) (c : Fin 64) (bit : Bool) : Screen :=
  fb.set r.val (fb[r.val].set c.val (fb[r.val][c.val] ^^ bit))

/-- `clear()`, R173: every pixel "off". -/
def Screen.cleared : Screen := Vector.replicate 32 (Vector.replicate 64 false)

/-- `r <- (y + row) mod 32` (R172). -/
def drawRow (y row : Nat) : Fin 32 := ⟨(y + row) % 32, Nat.mod_lt _ (by decide)⟩

/-- `c <- (x + col) mod 64` (R172). -/
def drawCol (x col : Nat) : Fin 64 := ⟨(x + col) % 64, Nat.mod_lt _ (by decide)⟩

/-- `b[7 - col]`: column 0 is the most significant bit, the leftmost pixel (R172). -/
def spriteBit (b : Byte) (col : Nat) : Bool := b.getLsbD (7 - col)

/-- One pixel of `draw`: the collision test, then the toggle (R172). The pair is the screen and the flag so far. -/
def drawPixel (x y row : Nat) (b : Byte) (acc : Screen × Bool) (col : Nat) : Screen × Bool :=
  match acc with
  | (fb, hit) =>
    let r := drawRow y row
    let c := drawCol x col
    (Screen.toggle fb r c (spriteBit b col), hit || (spriteBit b col && Screen.pixel fb r c))

/-- The eight pixels of the sprite byte of one row, column 0 first (R172). -/
def drawByte (x y row : Nat) (b : Byte) (acc : Screen × Bool) : Screen × Bool :=
  (List.range 8).foldl (drawPixel x y row b) acc

/-- The rows of the sprite from row number `row` on. -/
def drawRows (x y : Nat) : (row : Nat) → List Byte → Screen × Bool → Screen × Bool
  | _, [], acc => acc
  | row, b :: bs, acc => drawRows x y (row + 1) bs (drawByte x y row b acc)

/-- `draw(x, y, sprite_bytes)`, R172: the screen after it, and the collision flag. -/
def Screen.draw (fb : Screen) (x y : Nat) (bytes : List Byte) : Screen × Bool := drawRows x y 0 bytes (fb, false)

/-! ### The keypad (R30) -/

/-- `keys[k] = 1`. -/
def State.keyHeld (s : State) (k : Nat) : Bool := s.keys.getLsbD k

/-- "the least k in 0..15 with keys[k] = 1" (R187); none when no key is held. -/
def State.lowestKey (s : State) : Option Nat := (List.range 16).find? fun k => s.keyHeld k

/-! ### The end of an instruction: a directive applied (R113), or a fault taken (R206) -/

/-- The program counter after a directive: "`Next` advances PC by 2; `Skip` advances PC by 4; `Jump(addr)` sets PC to
`addr`; `Wait` leaves PC unchanged" (R113). -/
def Directive.apply (d : Directive) (pc : Word) : Word :=
  match d with
  | .next => pc + 2#16
  | .skip => pc + 4#16
  | .jump a => a
  | .wait => pc

/-- `pc` moved by the directive and `redraw` output: stages 4 and 5 of R111. -/
def State.finish (s : State) (d : Directive) (redraw : Bool) : State :=
  { s with pc := d.apply s.pc, redraw := redraw }

/-- A handler that completes with `(d, redraw)` (R111). -/
def complete (d : Directive) (redraw : Bool) (s : State) : Result := .next (s.finish d redraw)

/-- The code of a fault, which the latch holds (R205). -/
def FaultKind.code : FaultKind → BitVec 3
  | .stackOverflow => 1#3
  | .stackUnderflow => 2#3
  | .fetchRange => 3#3
  | .dataRange => 4#3
  | .keyIndex => 5#3

/-- No architectural state changes except `fault <- code(F)`, and `redraw = 0` (R206). -/
def State.latchFault (s : State) (k : FaultKind) : State := { s with fault := k.code, redraw := false }

/-- `raise F`, R206: the fault is TAKEN, so the outcome is a next state, which is the state before the instruction with
the latch set. Control goes nowhere: there is no vector, no handler and no saved state. -/
def raise (k : FaultKind) (s : State) : Result := .next (s.latchFault k)

/-! ### Fetching an instruction's bytes (R51, R112) -/

/-- Both bytes of the word at `pc` lie in memory (R112). -/
def State.fetchInRange (s : State) : Bool := decide (s.pc.toNat ≤ 0x0FFE)

/-- The word at `pc`, big-endian (R51). -/
def State.fetchWord (s : State) : Word := wordOfBytes (s.mem.read s.pc.toNat) (s.mem.read (s.pc.toNat + 1))

end Sys2Proof.Machine
end

