-- ==== Sys2Proof/Machine/Flags.lean ====
section
/-! DEFINITION. The arithmetic and the flag of every instruction that computes one (42_alu.md R148): operands as
unsigned integers, the exact result, then the result narrowed. -/

namespace Sys2Proof.Machine

/-- The byte VF holds for a flag: 1 or 0 (R34). -/
def flagByte (b : Bool) : Byte := if b then 1#8 else 0#8

/-- `ADD Vx, byte`: `(a + b) mod 256`, no flag (R141). -/
def addNoFlag (a b : Byte) : Byte := BitVec.ofNat 8 ((a.toNat + b.toNat) % 256)

/-- `ADD Vx, Vy`: `(a + b) mod 256`, and the flag "1 if s > 255 else 0" (R142). -/
def addCarry (a b : Byte) : Byte × Bool :=
  (BitVec.ofNat 8 ((a.toNat + b.toNat) % 256), decide (a.toNat + b.toNat > 255))

/-- `SUB Vx, Vy`: saturating at zero, and the flag "1 if Vx > Vy" (R143). -/
def subSaturating (a b : Byte) : Byte × Bool :=
  if a.toNat > b.toNat then (BitVec.ofNat 8 (a.toNat - b.toNat), true) else (0#8, false)

/-- `SHR Vx`: `a div 2`, and the flag `a mod 2` (R146). -/
def shiftRightOne (a : Byte) : Byte × Bool := (BitVec.ofNat 8 (a.toNat / 2), decide (a.toNat % 2 = 1))

/-- `ADD I, Vx`: `(I + zext_16(V[x])) mod 65536`, no flag (R161). -/
def addIndex (i : Word) (a : Byte) : Word := BitVec.ofNat 16 ((i.toNat + a.toNat) % 65536)

/-- One timer at a TICK: `t - 1` if `t > 0`, else 0 (R148, R192). -/
def tickTimer (t : Byte) : Byte := if t.toNat > 0 then BitVec.ofNat 8 (t.toNat - 1) else 0#8

end Sys2Proof.Machine
end

