-- ==== Sys2Proof/Machine/Operands.lean ====
section
/-! DEFINITION. The operand forms: the one addressing mode, register-indirect through `I` (43_index_memory.md R164),
with its range check (R58, R204); a register as a key number, with its check (R207); and the order of the two writes of
an instruction that writes a register and the flag (42_alu.md R149). Register and immediate operands need no form of
their own: `State.readV` and the instruction's own field. -/

namespace Sys2Proof.Machine

/-- The effective address of byte `k` of a transfer: `I + k` as an unbounded integer (R164). -/
def effAddr (i : Word) (k : Nat) : Nat := i.toNat + k

/-- The last address of a transfer of `len` bytes is at most 0xFFF; a transfer of no byte makes no access (R164, R204). -/
def transferFits (i : Word) (len : Nat) : Bool := decide (len = 0 ∨ effAddr i (len - 1) ≤ 0x0FFF)

/-- A transfer of `len` bytes at `I`: DataRange before the first byte moves, or the transfer (R164, R204). -/
def withTransfer (len : Nat) (s : State) (k : Nat → Result) : Result :=
  if transferFits s.i len then k (effAddr s.i 0) else raise .dataRange s

/-- The number of bytes `LD [I], Vx` and `LD Vx, [I]` move: x + 1 (R53). -/
def regCount (x : Reg) : Nat := x.toNat + 1

/-- The value of a register as a key number: KeyIndex above 15, before any change (R207). -/
def withKeyIndex (r : Reg) (s : State) (k : Nat → Result) : Result :=
  if (s.readV r).toNat > 15 then raise .keyIndex s else k (s.readV r).toNat

/-- The result written to `V[x]` and then the flag to `V[15]` (R149): for x = 15 VF ends holding the flag. -/
def State.writeResultThenFlag (s : State) (x : Reg) (res : Byte × Bool) : State :=
  (s.writeV x res.1).writeV vf (flagByte res.2)

/-- `Skip` when the condition holds, else `Next` (R113). -/
def skipIf (c : Bool) : Directive := if c then .skip else .next

end Sys2Proof.Machine
end

