-- ==== Sys2Proof/Machine/Alu.lean ====
section
/-! DEFINITION. The meanings of 42_alu.md. All sources are read from the state before the instruction (R149). -/

namespace Sys2Proof.Machine

/-- `LD Vx, byte`, R140. -/
def execLdByte (x : Reg) (kk : Byte) (s : State) : Result := complete .next false (s.writeV x kk)

/-- `ADD Vx, byte`, R141: no flag. -/
def execAddByte (x : Reg) (kk : Byte) (s : State) : Result :=
  complete .next false (s.writeV x (addNoFlag (s.readV x) kk))

/-- `ADD Vx, Vy`, R142. -/
def execAddReg (x y : Reg) (s : State) : Result :=
  complete .next false (s.writeResultThenFlag x (addCarry (s.readV x) (s.readV y)))

/-- `SUB Vx, Vy`, R143. -/
def execSubReg (x y : Reg) (s : State) : Result :=
  complete .next false (s.writeResultThenFlag x (subSaturating (s.readV x) (s.readV y)))

/-- `AND Vx, Vy`, R144: VF is not reset. -/
def execAndReg (x y : Reg) (s : State) : Result := complete .next false (s.writeV x (s.readV x &&& s.readV y))

/-- `XOR Vx, Vy`, R145: VF is not reset. -/
def execXorReg (x y : Reg) (s : State) : Result := complete .next false (s.writeV x (s.readV x ^^^ s.readV y))

/-- `SHR Vx`, R146: the operand is `V[x]`, never `V[y]` (R86). -/
def execShr (x _y : Reg) (s : State) : Result :=
  complete .next false (s.writeResultThenFlag x (shiftRightOne (s.readV x)))

/-- `LD Vx, Vy`, R147. -/
def execLdReg (x y : Reg) (s : State) : Result := complete .next false (s.writeV x (s.readV y))

/-- 8xy1, R150: "The spec gives these words no semantics"; refused. -/
def execUnnamed8xy1 (_x _y : Reg) (_s : State) : Result := .refused .unnamedAlu8xy1

/-- 8xy7, R150: refused. -/
def execUnnamed8xy7 (_x _y : Reg) (_s : State) : Result := .refused .unnamedAlu8xy7

/-- 8xyE, R150: refused. -/
def execUnnamed8xyE (_x _y : Reg) (_s : State) : Result := .refused .unnamedAlu8xyE

end Sys2Proof.Machine
end

