-- ==== Sys2Proof/Machine/Control.lean ====
section
/-! DEFINITION. The meanings of 41_control_flow.md (RET, JP, CALL, SE, SNE) and of NOP (40_step_cycle.md R116). `pc` is
the address of the instruction's own word until the directive is applied (R23). -/

namespace Sys2Proof.Machine

/-- `RET`, R130: StackUnderflow at depth 0; else decrement, read, jump to the popped address + 2. -/
def execRet (s : State) : Result :=
  if s.sp = 0#8 then raise .stackUnderflow s
  else
    match s.top with
    | some a => complete (.jump (BitVec.ofNat 16 ((a.toNat + 2) % 65536))) false s.drop
    | none => .fault .stackPointerOutOfRange

/-- `JP addr`, R131. -/
def execJp (nnn : Addr12) (s : State) : Result := complete (.jump (zext16 nnn)) false s

/-- `CALL addr`, R132: StackOverflow at depth 16; else the address of this CALL's own word is pushed. -/
def execCall (nnn : Addr12) (s : State) : Result :=
  if s.sp = 16#8 then raise .stackOverflow s
  else if h : s.sp.toNat < 16 then complete (.jump (zext16 nnn)) false (s.push s.pc h)
  else .fault .stackPointerOutOfRange

/-- `SE Vx, byte`, R133. -/
def execSe (x : Reg) (kk : Byte) (s : State) : Result := complete (skipIf (decide (s.readV x = kk))) false s

/-- `SNE Vx, byte`, R134. -/
def execSne (x : Reg) (kk : Byte) (s : State) : Result := complete (skipIf (decide (s.readV x ≠ kk))) false s

/-- NOP, R116: every bit of the word is ignored. -/
def execNop (_w : Word) (s : State) : Result := complete .next false s

end Sys2Proof.Machine
end

