-- ==== Sys2Proof/Machine/Display.lean ====
section
/-! DEFINITION. The meanings of 44_display.md. Both output `redraw = 1` whenever they complete (40_step_cycle.md R115). -/

namespace Sys2Proof.Machine

/-- `CLS`, R170: VF is not written. -/
def execCls (s : State) : Result := complete .next true (s.writeFB Screen.cleared)

/-- `DRW Vx, Vy, n`, R171: the position is read before VF is written; DataRange before any read or pixel write. -/
def execDrw (x y : Reg) (n : Nibble) (s : State) : Result :=
  withTransfer n.toNat s fun base =>
    match Screen.draw s.fb ((s.readV x).toNat % 64) ((s.readV y).toNat % 32) (s.mem.readBytes base n.toNat) with
    | (fb, collision) => complete .next true ((s.writeFB fb).writeV vf (flagByte collision))

end Sys2Proof.Machine
end

