-- ==== Sys2Proof/Machine/Index.lean ====
section
/-! DEFINITION. The meanings of 43_index_memory.md. `I` is not changed by the two transfers (R164). -/

namespace Sys2Proof.Machine

/-- `LD I, addr`, R160. -/
def execLdI (nnn : Addr12) (s : State) : Result := complete .next false (s.writeI (zext16 nnn))

/-- `ADD I, Vx`, R161: modulo 65536, no flag and no fault. -/
def execAddI (x : Reg) (s : State) : Result := complete .next false (s.writeI (addIndex s.i (s.readV x)))

/-- `LD [I], Vx`, R162: V0 to Vx to memory at I, or DataRange and nothing written. -/
def execStoreRegs (x : Reg) (s : State) : Result :=
  withTransfer (regCount x) s fun base => complete .next false (s.writeMem (s.storedRegs base (regCount x)))

/-- `LD Vx, [I]`, R163: V0 to Vx from memory at I, or DataRange and no register changed. -/
def execLoadRegs (x : Reg) (s : State) : Result :=
  withTransfer (regCount x) s fun base => complete .next false (s.loadedRegs base (regCount x))

end Sys2Proof.Machine
end

