-- ==== Sys2Proof/Machine/KeysTimers.lean ====
section
/-! DEFINITION. The meanings of 45_keys_timers.md: the keypad and the timer moves. -/

namespace Sys2Proof.Machine

/-- `SKP Vx`, R185. -/
def execSkp (x : Reg) (s : State) : Result :=
  withKeyIndex x s fun k => complete (skipIf (s.keyHeld k)) false s

/-- `SKNP Vx`, R186. -/
def execSknp (x : Reg) (s : State) : Result :=
  withKeyIndex x s fun k => complete (skipIf (!s.keyHeld k)) false s

/-- `LD Vx, K`, R187: `Wait` while no key is held; else the lowest held key. -/
def execLdKey (x : Reg) (s : State) : Result :=
  match s.lowestKey with
  | none => complete .wait false s
  | some k => complete .next false (s.writeV x (BitVec.ofNat 8 k))

/-- `LD DT, Vx`, R188. -/
def execLdDtVx (x : Reg) (s : State) : Result := complete .next false (s.writeDT (s.readV x))

/-- `LD Vx, DT`, R189. -/
def execLdVxDt (x : Reg) (s : State) : Result := complete .next false (s.writeV x s.dt)

/-- `LD ST, Vx`, R190. -/
def execLdStVx (x : Reg) (s : State) : Result := complete .next false (s.writeST (s.readV x))

end Sys2Proof.Machine
end

