-- ==== Sys2Proof/Machine/Dispatch.lean ====
section
/-! DEFINITION. The dispatch `Exec(op)` of 40_step_cycle.md R114: one arm per constructor. -/

namespace Sys2Proof.Machine

def exec (i : Instr) (s : State) : Host.Outcome State Fault Refusal :=
  match i with
  | .cls => Sys2Proof.Machine.execCls s
  | .ret => Sys2Proof.Machine.execRet s
  | .jp nnn => Sys2Proof.Machine.execJp nnn s
  | .call nnn => Sys2Proof.Machine.execCall nnn s
  | .se x kk => Sys2Proof.Machine.execSe x kk s
  | .sne x kk => Sys2Proof.Machine.execSne x kk s
  | .ldByte x kk => Sys2Proof.Machine.execLdByte x kk s
  | .addByte x kk => Sys2Proof.Machine.execAddByte x kk s
  | .addReg x y => Sys2Proof.Machine.execAddReg x y s
  | .subReg x y => Sys2Proof.Machine.execSubReg x y s
  | .andReg x y => Sys2Proof.Machine.execAndReg x y s
  | .xorReg x y => Sys2Proof.Machine.execXorReg x y s
  | .shr x y => Sys2Proof.Machine.execShr x y s
  | .ldReg x y => Sys2Proof.Machine.execLdReg x y s
  | .ldI nnn => Sys2Proof.Machine.execLdI nnn s
  | .addI x => Sys2Proof.Machine.execAddI x s
  | .storeRegs x => Sys2Proof.Machine.execStoreRegs x s
  | .loadRegs x => Sys2Proof.Machine.execLoadRegs x s
  | .drw x y n => Sys2Proof.Machine.execDrw x y n s
  | .skp x => Sys2Proof.Machine.execSkp x s
  | .sknp x => Sys2Proof.Machine.execSknp x s
  | .ldKey x => Sys2Proof.Machine.execLdKey x s
  | .ldDtVx x => Sys2Proof.Machine.execLdDtVx x s
  | .ldVxDt x => Sys2Proof.Machine.execLdVxDt x s
  | .ldStVx x => Sys2Proof.Machine.execLdStVx x s
  | .unnamed8xy1 x y => Sys2Proof.Machine.execUnnamed8xy1 x y s
  | .unnamed8xy7 x y => Sys2Proof.Machine.execUnnamed8xy7 x y s
  | .unnamed8xyE x y => Sys2Proof.Machine.execUnnamed8xyE x y s
  | .nop w => Sys2Proof.Machine.execNop w s

end Sys2Proof.Machine
end

