-- ==== Sys2Proof/Machine/Events.lean ====
section
/-! DEFINITION. The five events (40_step_cycle.md R110) as functions on the state, each atomic, and the choice of the
next one. RESET and LOAD are 70_reset_and_hazards.md R230 and R233, STEP is R111, TICK R192, SETKEYS R119. The schedule
is the environment's: any order and any number of events (R118). -/

namespace Sys2Proof.Machine

/-- STEP, R111: void in the fault state (R117); else FetchRange or fetch, decode and execute (R112). The checks stand
in the order of R210. A STEP ends the time in which a LOAD may be issued (R234). -/
def cpuStep (s : State) : Result :=
  if s.fault ≠ 0#3 then .next { s with redraw := false }
  else if s.fetchInRange then exec (decode s.fetchWord) { s with loadDone := true }
  else raise .fetchRange { s with loadDone := true }

/-- RESET, R230: every piece of state takes its reset value, in any state. The environment's schedule is no state of
the block and goes on. -/
def resetEvent (s : State) : State := { State.reset with events := s.events }

/-- LOAD(bytes), R233: at most 3584 bytes, copied to 0x200 and up, and nothing else; only as the first LOAD since
RESET and before the first STEP (R234). -/
def loadEvent (bytes : List Byte) (s : State) : Result :=
  if s.loadDone then .refused .loadOutOfOrder
  else if bytes.length ≤ Config.maxProgramBytes then
    .next { s with mem := s.mem.writeBytes Config.loadOrigin bytes, loadDone := true }
  else .refused .loadTooLong

/-- TICK, R192: both timers, each by its own test, in every state. -/
def tickEvent (s : State) : State := { s with dt := tickTimer s.dt, st := tickTimer s.st }

/-- SETKEYS(k), R119: all 16 flags at once, in every state. -/
def setKeysEvent (k : BitVec 16) (s : State) : State := { s with keys := k }

/-- One event. -/
def applyEvent (e : Event) (s : State) : Result :=
  match e with
  | .reset => .next (resetEvent s)
  | .load bytes => loadEvent bytes s
  | .step => cpuStep s
  | .tick => .next (tickEvent s)
  | .setKeys k => .next (setKeysEvent k s)

/-- The next event of the schedule, taken off it; a STEP when the schedule is empty (log entry 4). -/
def nextEvent (s : State) : Result :=
  match s.events with
  | [] => cpuStep s
  | e :: rest => applyEvent e { s with events := rest }

/-- The state in which the next event is a STEP that fetches the bytes `hi`, `lo`: they are stored at `pc`, in place
of a LOAD, no event is pending before that STEP, and the latch is clear (a faulted machine fetches nothing, R117). A
`pc` outside the fetch range is put at the load origin. -/
def placeInstruction (s : State) (hi lo : Byte) : State :=
  let pc := if s.fetchInRange then s.pc else BitVec.ofNat 16 Config.loadOrigin
  { s with pc := pc, mem := (s.mem.write pc.toNat hi).write (pc.toNat + 1) lo, fault := 0#3, loadDone := true, events := [] }

end Sys2Proof.Machine
end

