-- ==== Sys2Proof/Machine/Step.lean ====
section
/-! DEFINITION. One step of the model: the next event of the schedule, which is a STEP (40_step_cycle.md R111) when
nothing else is scheduled; and the placing of one instruction where that STEP fetches it. -/

namespace Sys2Proof.Machine

/-- One step. -/
def step (s : State) : Host.Outcome State Fault Refusal := nextEvent s

/-- `s` with the instruction of a table word stored where the next STEP fetches it. -/
def State.withFetchWord (s : State) (nbits w : Nat) : State :=
  placeInstruction s (highByte (tableWord nbits w)) (lowByte (tableWord nbits w))

end Sys2Proof.Machine
end

