-- ==== Sys2Proof/Machine/EndOfRun.lean ====
section
/-! DEFINITION. The model's own end-of-run observation (40_step_cycle.md R120): "A model must define its own end-of-run
observation (for example: the state when `pc` first equals a given address); the document gives none" (N30; log entry
16). It observes a run and changes no step. -/

namespace Sys2Proof.Machine

/-- How an observed run ended, with the state it ended in. The first two are R120's "two ways only" in which a run ends,
the third is the observation the model adds for a program that is done and loops, the last is a stop of the model. -/
inductive RunEnd where
  /-- "the fault latch becomes non-zero" (R120, R206). -/
  | faulted (s : State)
  /-- "the environment stops issuing events" (R120): the events observed are used up. -/
  | eventsOver (s : State)
  /-- `pc` equals the given address for the first time, the latch clear. -/
  | atAddress (s : State)
  /-- The model has no next state for the event: a refused word, a LOAD out of place or an unreachable stack pointer. -/
  | noMove (s : State)
  deriving DecidableEq, Repr

/-- The end of the run from `s` that is observed for at most `n` events and watched for `pc` at `stop`. The latch is
looked at first: a faulted run has ended wherever its `pc` is. -/
def observeRun (stop : Word) : (n : Nat) → State → RunEnd
  | 0, s => if s.fault ≠ 0#3 then .faulted s else if s.pc = stop then .atAddress s else .eventsOver s
  | n + 1, s =>
    if s.fault ≠ 0#3 then .faulted s else if s.pc = stop then .atAddress s
    else match step s with
      | .next t => observeRun stop n t
      | .fault _ => .noMove s
      | .refused _ => .noMove s

end Sys2Proof.Machine
end

