-- ==== Sys2Proof/WellFormed.lean ====
section
/-! DEFINITION. Well-formed instructions. Every register index, immediate, address and count is a bit vector of its
field's width, so every value of it is legal (30_encoding.md R82); the one check left is that `nop` holds a word that
names no instruction and no refused slot (R87). -/

namespace Sys2Proof

/-- The instruction is one that some word decodes to. -/
def Instr.WellFormed : Instr → Bool
  | .cls => true
  | .ret => true
  | .jp _ => true
  | .call _ => true
  | .se _ _ => true
  | .sne _ _ => true
  | .ldByte _ _ => true
  | .addByte _ _ => true
  | .addReg _ _ => true
  | .subReg _ _ => true
  | .andReg _ _ => true
  | .xorReg _ _ => true
  | .shr _ _ => true
  | .ldReg _ _ => true
  | .ldI _ => true
  | .addI _ => true
  | .storeRegs _ => true
  | .loadRegs _ => true
  | .drw _ _ _ => true
  | .skp _ => true
  | .sknp _ => true
  | .ldKey _ => true
  | .ldDtVx _ => true
  | .ldVxDt _ => true
  | .ldStVx _ => true
  | .unnamed8xy1 _ _ => true
  | .unnamed8xy7 _ _ => true
  | .unnamed8xyE _ _ => true
  | .nop w => unrecognized w

end Sys2Proof
end

