-- ==== Sys2Proof/Safety.lean ====
section
/-! DEFINITION. The terms claims about runs use: running and faulted states, the invariant of the machine, the states
reachable from RESET under any schedule, what an instruction may write, and a state that differs from another in named
parts only. -/

namespace Sys2Proof.Machine

/-- The latch is clear: the machine runs (R31). -/
abbrev State.Running (s : State) : Prop := s.fault = 0#3

/-- The next event is a STEP, and `rest` is the schedule after it: a STEP at the head of the schedule (R118), or no event
left (log entry 4). -/
def State.NextIsStep (s : State) (rest : List Event) : Prop :=
  s.events = .step :: rest ∨ (s.events = [] ∧ rest = [])

/-- `t` is `s` with a fault taken: "the state before the faulting instruction, plus the latch" (R206). -/
def FaultTaken (k : FaultKind) (s t : State) : Prop := t = { s with fault := k.code, redraw := false }

/-- What every reachable state satisfies. -/
structure State.Inv (s : State) : Prop where
  /-- The memory is in canonical form. -/
  memCanonical : s.mem.wf = true
  /-- "0 to 16 inclusive" (R26). -/
  depth : s.sp.toNat ≤ 16
  /-- "the largest value `pc` can reach is 0x1002" (R24). -/
  pcBound : s.pc.toNat ≤ 0x1002
  /-- Codes 6 and 7 are "never produced" (R205). -/
  faultCode : s.fault.toNat ≤ 5
  /-- "a stored address is the `pc` of a `CALL` that was fetched, hence at most 0x0FFE" (R130). -/
  returns : ∀ k : Fin 16, k.val < s.sp.toNat → s.stack[k.val].toNat ≤ 0x0FFE
  /-- Only a STEP faults (R200), and after a STEP no LOAD may follow (R234). -/
  faultAfterStep : s.fault ≠ 0#3 → s.loadDone = true

/-- The states of all runs: RESET, then any events in any order (R118, R234), as far as the model has a next state. -/
inductive Reachable : State → Prop where
  | reset (schedule : List Event) : Reachable { State.reset with events := schedule }
  | step (s t : State) (h : Reachable s) (hs : step s = .next t) : Reachable t

/-- The parts of the block an instruction may write besides registers, `pc`, the latch and the redraw output. -/
inductive Part where
  | index
  | stack
  | delayTimer
  | soundTimer
  | memory
  | screen
  deriving DecidableEq, Repr

/-- Everything is as before but for: the registers in `regs`, the parts in `parts`, `pc` and the redraw output. Memory
is compared through the read of one byte and the screen through the read of one pixel. -/
structure Frame (regs : List Reg) (parts : List Part) (s t : State) : Prop where
  regs : ∀ r, r ∉ regs → t.readV r = s.readV r
  index : .index ∉ parts → t.i = s.i
  stack : .stack ∉ parts → t.sp = s.sp ∧ t.stack = s.stack
  delayTimer : .delayTimer ∉ parts → t.dt = s.dt
  soundTimer : .soundTimer ∉ parts → t.st = s.st
  memory : .memory ∉ parts → ∀ a, t.mem.read a = s.mem.read a
  screen : .screen ∉ parts → ∀ r c, t.fb.pixel r c = s.fb.pixel r c
  keys : t.keys = s.keys
  fault : t.fault = s.fault
  loadDone : t.loadDone = s.loadDone
  events : t.events = s.events

/-- The registers an instruction may write: its destination, and VF for the four instructions that write the flag
(R34, R237); V0 to Vx for the register load (R163). -/
def destRegs : Instr → List Reg
  | .cls => []
  | .ret => []
  | .jp _ => []
  | .call _ => []
  | .se _ _ => []
  | .sne _ _ => []
  | .ldByte x _ => [x]
  | .addByte x _ => [x]
  | .addReg x _ => [x, vf]
  | .subReg x _ => [x, vf]
  | .andReg x _ => [x]
  | .xorReg x _ => [x]
  | .shr x _ => [x, vf]
  | .ldReg x _ => [x]
  | .ldI _ => []
  | .addI _ => []
  | .storeRegs _ => []
  | .loadRegs x => (List.range (x.toNat + 1)).map (BitVec.ofNat 4)
  | .drw _ _ _ => [vf]
  | .skp _ => []
  | .sknp _ => []
  | .ldKey x => [x]
  | .ldDtVx _ => []
  | .ldVxDt x => [x]
  | .ldStVx _ => []
  | .unnamed8xy1 _ _ => []
  | .unnamed8xy7 _ _ => []
  | .unnamed8xyE _ _ => []
  | .nop _ => []

/-- The parts an instruction may write: the column "written by" of R20. -/
def destParts : Instr → List Part
  | .cls => [.screen]
  | .ret => [.stack]
  | .jp _ => []
  | .call _ => [.stack]
  | .se _ _ => []
  | .sne _ _ => []
  | .ldByte _ _ => []
  | .addByte _ _ => []
  | .addReg _ _ => []
  | .subReg _ _ => []
  | .andReg _ _ => []
  | .xorReg _ _ => []
  | .shr _ _ => []
  | .ldReg _ _ => []
  | .ldI _ => [.index]
  | .addI _ => [.index]
  | .storeRegs _ => [.memory]
  | .loadRegs _ => []
  | .drw _ _ _ => [.screen]
  | .skp _ => []
  | .sknp _ => []
  | .ldKey _ => []
  | .ldDtVx _ => [.delayTimer]
  | .ldVxDt _ => []
  | .ldStVx _ => [.soundTimer]
  | .unnamed8xy1 _ _ => []
  | .unnamed8xy7 _ _ => []
  | .unnamed8xyE _ _ => []
  | .nop _ => []

end Sys2Proof.Machine
end

