-- ==== Sys2Proof/Certificates/Slice0/Obligations.lean ====
section
/-! DEFINITION. The statements for the provers. Each docstring names the rule of spec/ the statement formalises, and says
where a clause is the spec's own decision (92_eei_decisions.md), its general-knowledge passage G1, or the model's choice
(a log entry). -/

open Sys2Proof Sys2Proof.Machine

/-! ### Encoding -/

/-- R81: the six fields are what the masks and shifts of its table give, and each format lays its fields out as its
second table says (NNN, XKK, XYN; XY and X are XYN and XKK with the last field fixed, FIXED has none). -/
def Obligations.FieldsAreMasksAndShifts : Prop :=
  (∀ w : Word,
    (fieldOp w).setWidth 16 = (w &&& 0xF000#16) >>> 12 ∧ (fieldX w).setWidth 16 = (w &&& 0x0F00#16) >>> 8 ∧
    (fieldY w).setWidth 16 = (w &&& 0x00F0#16) >>> 4 ∧ (fieldN w).setWidth 16 = w &&& 0x000F#16 ∧
    (fieldKK w).setWidth 16 = w &&& 0x00FF#16 ∧ (fieldNNN w).setWidth 16 = w &&& 0x0FFF#16) ∧
  (∀ (op : Nibble) (a : Addr12), fieldOp (encodeNNN op a) = op ∧ fieldNNN (encodeNNN op a) = a) ∧
  (∀ (op : Nibble) (x : Reg) (kk : Byte), fieldOp (encodeXKK op x kk) = op ∧ fieldX (encodeXKK op x kk) = x ∧
    fieldKK (encodeXKK op x kk) = kk) ∧
  (∀ (op : Nibble) (x y : Reg) (n : Nibble), fieldOp (encodeXYN op x y n) = op ∧ fieldX (encodeXYN op x y n) = x ∧
    fieldY (encodeXYN op x y n) = y ∧ fieldN (encodeXYN op x y n) = n)

/-- R84, R89: "No two rows overlap", and every word is in exactly one class: it selects a named row, or a refused row, or
is unrecognized. The opcode numbers are G1's. -/
def Obligations.EveryWordSelectsAtMostOneRow : Prop :=
  (∀ (w : Word) (p q : OpcodeRow), p ∈ opcodeRows → q ∈ opcodeRows → p.selects w = true → q.selects w = true → p = q) ∧
  (∀ w : Word, unrecognized w = true ↔ ∀ p ∈ opcodeRows, p.selects w = false)

/-- R83, R85, R87: the nested decoder and the table of (match, mask) rows are the same map: a word that selects a row
decodes to that row's instruction, every operand of which is the word's field of that name (R81, R85), and a word that
selects none decodes to the NOP of that word. That `shr` has the operand y and `nop` the word is the model's choice (log
entry 8); the opcode numbers are G1's. -/
def Obligations.DecoderFollowsTheOpcodeMap : Prop :=
  (∀ (w : Word) (p : OpcodeRow), p ∈ opcodeRows → p.selects w = true → (decode w).mnemonic = p.mnemonic) ∧
  (∀ w : Word, unrecognized w = true → decode w = .nop w) ∧
  (∀ w : Word, match decode w with
    | .cls | .ret => True
    | .jp nnn | .call nnn | .ldI nnn => nnn = fieldNNN w
    | .se x kk | .sne x kk | .ldByte x kk | .addByte x kk => x = fieldX w ∧ kk = fieldKK w
    | .addReg x y | .subReg x y | .andReg x y | .xorReg x y | .shr x y | .ldReg x y
    | .unnamed8xy1 x y | .unnamed8xy7 x y | .unnamed8xyE x y => x = fieldX w ∧ y = fieldY w
    | .drw x y n => x = fieldX w ∧ y = fieldY w ∧ n = fieldN w
    | .addI x | .storeRegs x | .loadRegs x | .skp x | .sknp x | .ldKey x | .ldDtVx x | .ldVxDt x | .ldStVx x =>
      x = fieldX w
    | .nop v => v = w)

/-- Every well-formed instruction, at every value of every operand, is what its encoded word decodes to. -/
def Obligations.DecodeOfEncodeIsTheInstruction : Prop :=
  ∀ i : Instr, i.WellFormed = true → decode (encode i) = i

/-- Every word is the encoding of the instruction it decodes to, which is well formed: decoding is total (R83) and drops no
bit. That it drops none is the model's choice (log entry 8): R85 and R86 decode `Shr` without the field y and `Nop` without
the word, and the model's `shr` and `nop` keep them. -/
def Obligations.EncodeOfDecodeIsTheWord : Prop :=
  ∀ w : Word, encode (decode w) = w ∧ (decode w).WellFormed = true

/-- R93: its ten worked decodes. The first three words are the document's literals, the others' numbers are G1's. -/
def Obligations.WorkedWordsDecodeAsWritten : Prop :=
  decode 0x00E0#16 = .cls ∧ decode 0x1234#16 = .jp 0x234#12 ∧ decode 0xD123#16 = .drw 0x1#4 0x2#4 0x3#4 ∧
  decode 0x6005#16 = .ldByte 0x0#4 0x05#8 ∧ decode 0x8AB6#16 = .shr 0xA#4 0xB#4 ∧ decode 0xF31E#16 = .addI 0x3#4 ∧
  decode 0x00E1#16 = .nop 0x00E1#16 ∧ decode 0x5120#16 = .nop 0x5120#16 ∧
  decode 0x8121#16 = .unnamed8xy1 0x1#4 0x2#4 ∧ decode 0xFFFF#16 = .nop 0xFFFF#16

/-! ### Fetch and step -/

/-- R51: "`w = MemRead(pc,1) * 256 + MemRead(pc+1,1)`". -/
def Obligations.FetchIsBigEndian : Prop :=
  ∀ s : State, s.fetchWord.toNat = (s.mem.read s.pc.toNat).toNat * 256 + (s.mem.read (s.pc.toNat + 1)).toNat

/-- R111: where the schedule is empty or its head is a STEP, the machine runs, and `pc` is in the fetch range, a step
is exec of the decoded word, at the state with that STEP off the schedule and the LOAD window closed (log entries 3, 4). -/
def Obligations.StepRunsTheDecodedInstruction : Prop :=
  ∀ s : State, s.fault = 0#3 → s.pc.toNat ≤ 0x0FFE →
    (s.events = [] → step s = exec (decode s.fetchWord) { s with loadDone := true }) ∧
    (∀ rest, s.events = .step :: rest →
      step s = exec (decode s.fetchWord) { s with loadDone := true, events := rest })

/-- The instruction of any table word, placed by `withFetchWord` in any state, is the one the next step runs, and it is
the one `decodeTableWord` answers (log entry 5). -/
def Obligations.PlacedTableWordRunsNext : Prop :=
  ∀ (s : State) (w : Word),
    step (s.withFetchWord 16 w.toNat) = exec (decode w) (s.withFetchWord 16 w.toNat) ∧
    decodeTableWord 16 w.toNat = some (decode w)

/-- R112, R203: a STEP, scheduled or not, with `pc` above 0x0FFE takes FetchRange, code 3 (D5, D6), and changes nothing else
of the block; the LOAD window closes (log entry 3) and the STEP is off the schedule (log entry 4). -/
def Obligations.FetchOutsideMemoryFaults : Prop :=
  ∀ (s : State) (rest : List Event), s.NextIsStep rest → s.fault = 0#3 → s.pc.toNat > 0x0FFE →
    step s = .next { s with loadDone := true, fault := 3#3, redraw := false, events := rest }

/-- R117: "When `fault != 0` a STEP changes nothing and outputs `redraw = 0`" (D16), be it scheduled or not; it is taken off
the schedule (log entry 4). -/
def Obligations.StepInTheFaultStateIsVoid : Prop :=
  ∀ (s : State) (rest : List Event), s.NextIsStep rest → s.fault ≠ 0#3 →
    step s = .next { s with redraw := false, events := rest }

/-- R110, R118: whatever event the schedule holds first is applied by itself, in every state, and taken off it. The
schedule as a list in State is the model's choice (log entry 4). -/
def Obligations.ScheduledEventIsAppliedAlone : Prop :=
  ∀ (s : State) (e : Event) (rest : List Event), s.events = e :: rest →
    step s = applyEvent e { s with events := rest }

/-! ### Events -/

/-- R192: a TICK decrements each timer that is above 0 and touches nothing else, in every state (the fault state and a
waiting `LD Vx, K` included); a timer loaded with v reaches 0 after exactly v TICKs and stays there. That the
event stands at the head of a list in State and is taken off it is the model's choice (log entry 4). -/
def Obligations.TickDecrementsEachTimer : Prop :=
  (∀ (s : State) (rest : List Event), s.events = .tick :: rest → ∃ t, step s = .next t ∧
    t.dt.toNat = (if s.dt.toNat > 0 then s.dt.toNat - 1 else 0) ∧
    t.st.toNat = (if s.st.toNat > 0 then s.st.toNat - 1 else 0) ∧
    t = { s with dt := t.dt, st := t.st, events := rest }) ∧
  (∀ (s : State) (n : Nat), (tickEvent^[n] s).dt.toNat = s.dt.toNat - n ∧ (tickEvent^[n] s).st.toNat = s.st.toNat - n)

/-- R119: SETKEYS(k) sets `keys[j]` to `k[j]` for all 16 at once and changes nothing else, in every state. That the
event stands at the head of a list in State and is taken off it is the model's choice (log entry 4). -/
def Obligations.SetKeysReplacesTheSnapshot : Prop :=
  ∀ (s : State) (k : BitVec 16) (rest : List Event), s.events = .setKeys k :: rest → ∃ t, step s = .next t ∧
    (∀ j, j < 16 → t.keyHeld j = k.getLsbD j) ∧ t = { s with keys := t.keys, events := rest }

/-- R230, R231: RESET, in any state, the fault state included, sets every piece of state to its value (D3, D4). The
values of the last three fields are the model's choice (log entries 2, 3, 4). -/
def Obligations.ResetSetsEveryPieceOfState : Prop :=
  ∀ (s : State) (rest : List Event), s.events = .reset :: rest → ∃ t, step s = .next t ∧
    (∀ r, t.readV r = 0x00#8) ∧ t.i = 0x0000#16 ∧ t.pc = 0x0200#16 ∧ t.sp = 0x00#8 ∧
    (∀ k : Fin 16, t.stack[k.val] = 0x0000#16) ∧ t.dt = 0x00#8 ∧ t.st = 0x00#8 ∧ (∀ a, t.mem.read a = 0x00#8) ∧
    (∀ r c, t.fb.pixel r c = false) ∧ (∀ j, t.keyHeld j = false) ∧ t.fault = 0#3 ∧
    t.redraw = false ∧ t.loadDone = false ∧ t.events = rest

/-- R233: the first LOAD after RESET, before any STEP, of at most 3584 bytes, copies them verbatim to 0x200 and up and
writes nothing else (D18, D25); it closes the LOAD window (log entry 3) and is taken off the schedule (log entry 4). -/
def Obligations.LoadCopiesTheProgram : Prop :=
  ∀ (s : State) (bytes : List Byte) (rest : List Event), s.events = .load bytes :: rest → s.loadDone = false →
    bytes.length ≤ 3584 → ∃ t, step s = .next t ∧
      (∀ k (h : k < bytes.length), t.mem.read (0x200 + k) = bytes[k]) ∧
      (∀ a, (a < 0x200 ∨ 0x200 + bytes.length ≤ a) → t.mem.read a = s.mem.read a) ∧
      t = { s with mem := t.mem, loadDone := true, events := rest }

/-- R233, R234: a LOAD that is too long or out of order is refused (D18, D25; log entries 3, 14), at the head of the schedule
(log entry 4). -/
def Obligations.LoadOutOfPlaceIsRefused : Prop :=
  ∀ (s : State) (bytes : List Byte) (rest : List Event), s.events = .load bytes :: rest →
    (s.loadDone = true → step s = .refused .loadOutOfOrder) ∧
    (s.loadDone = false → bytes.length > 3584 → step s = .refused .loadTooLong)

/-! ### Control flow -/

/-- R131: `JP addr` is 1nnn and jumps to the zero-extended address, for every address (odd ones and its own included),
writing nothing but `pc`. The zero-extension is D22. -/
def Obligations.JpJumpsToItsAddress : Prop :=
  ∀ (a : Addr12) (s : State), decode (0x1#4 ++ a) = .jp a ∧
    ∃ t, exec (.jp a) s = .next t ∧ t.pc.toNat = a.toNat ∧ t.redraw = false ∧ Frame [] [] s t

/-- R132: `CALL addr` below depth 16 writes its own address to `stack[sp]`, increments `sp` and jumps (D17, D22). -/
def Obligations.CallPushesItsOwnAddress : Prop :=
  ∀ (a : Addr12) (s : State) (h : s.sp.toNat < 16), ∃ t, exec (.call a) s = .next t ∧
    t.stack[s.sp.toNat] = s.pc ∧ (∀ k : Fin 16, k.val ≠ s.sp.toNat → t.stack[k.val] = s.stack[k.val]) ∧
    t.sp.toNat = s.sp.toNat + 1 ∧ t.pc.toNat = a.toNat ∧ t.redraw = false ∧ Frame [] [.stack] s t

/-- R130: `RET` at depth 1 to 16 decrements `sp` and jumps to 2 past the address in the entry below; no entry is
erased (D17). -/
def Obligations.RetJumpsPastTheCall : Prop :=
  ∀ (s : State) (h0 : 0 < s.sp.toNat) (h : s.sp.toNat ≤ 16), ∃ t, exec .ret s = .next t ∧
    t.sp.toNat = s.sp.toNat - 1 ∧ t.stack = s.stack ∧
    t.pc.toNat = ((s.stack[s.sp.toNat - 1]'(by omega)).toNat + 2) % 65536 ∧
    t.redraw = false ∧ Frame [] [.stack] s t

/-- R201, R202, R206: `CALL` at depth 16 takes StackOverflow (code 1), `RET` at depth 0 StackUnderflow (code 2); nothing
else changes (D5, D6). -/
def Obligations.CallAndRetFaultAtTheDepthLimits : Prop :=
  (∀ (a : Addr12) (s : State), s.sp.toNat = 16 → exec (.call a) s = .next { s with fault := 1#3, redraw := false }) ∧
  (∀ s : State, s.sp.toNat = 0 → exec .ret s = .next { s with fault := 2#3, redraw := false })

/-- The property of R130: "`CALL addr` followed immediately by `RET` restores the program counter to the instruction
after the original `CALL`", and the depth; the other entries and all else are as before the call. -/
def Obligations.CallThenRetReturnsAfterTheCall : Prop :=
  ∀ (a : Addr12) (s t u : State), s.sp.toNat < 16 → exec (.call a) s = .next t → exec .ret t = .next u →
    u.pc = s.pc + 2#16 ∧ u.sp = s.sp ∧ Frame [] [.stack] s u ∧
    (∀ k : Fin 16, k.val ≠ s.sp.toNat → u.stack[k.val] = s.stack[k.val])

/-- R133, R134: `SE` skips exactly when the register equals the immediate, `SNE` exactly when it does not; `Skip` is
`pc + 4`, `Next` is `pc + 2`. -/
def Obligations.SeAndSneSkipOnTheirCondition : Prop :=
  ∀ (x : Reg) (kk : Byte) (s : State),
    (∃ t, exec (.se x kk) s = .next t ∧ t.pc = (if s.readV x = kk then s.pc + 4#16 else s.pc + 2#16) ∧
      t.redraw = false ∧ Frame [] [] s t) ∧
    (∃ t, exec (.sne x kk) s = .next t ∧ t.pc = (if s.readV x = kk then s.pc + 2#16 else s.pc + 4#16) ∧
      t.redraw = false ∧ Frame [] [] s t)

/-- R116: NOP, whatever its word, advances `pc` by 2 and changes nothing else (D11, D20, D21). -/
def Obligations.NopOnlyAdvances : Prop :=
  ∀ (w : Word) (s : State), ∃ t, exec (.nop w) s = .next t ∧ t.pc = s.pc + 2#16 ∧ t.redraw = false ∧ Frame [] [] s t

/-! ### Register and arithmetic -/

/-- R140: `LD Vx, byte` assigns the immediate to Vx, VF included. -/
def Obligations.LdByteAssignsTheImmediate : Prop :=
  ∀ (x : Reg) (kk : Byte) (s : State), ∃ t, exec (.ldByte x kk) s = .next t ∧ t.readV x = kk ∧
    t.pc = s.pc + 2#16 ∧ t.redraw = false ∧ Frame [x] [] s t

/-- R141: `ADD Vx, byte` is modulo 256 and writes no flag. -/
def Obligations.AddByteWrapsWithoutAFlag : Prop :=
  ∀ (x : Reg) (kk : Byte) (s : State), ∃ t, exec (.addByte x kk) s = .next t ∧
    (t.readV x).toNat = ((s.readV x).toNat + kk.toNat) % 256 ∧
    t.pc = s.pc + 2#16 ∧ t.redraw = false ∧ Frame [x] [] s t

/-- R147: `LD Vx, Vy` copies. -/
def Obligations.LdRegCopies : Prop :=
  ∀ (x y : Reg) (s : State), ∃ t, exec (.ldReg x y) s = .next t ∧ t.readV x = s.readV y ∧
    t.pc = s.pc + 2#16 ∧ t.redraw = false ∧ Frame [x] [] s t

/-- R144, R145: `AND` and `XOR` combine bit by bit and write no flag (VF is not reset). -/
def Obligations.AndXorCombineBitwise : Prop :=
  ∀ (x y : Reg) (s : State),
    (∃ t, exec (.andReg x y) s = .next t ∧
      (∀ j, j < 8 → (t.readV x).getLsbD j = ((s.readV x).getLsbD j && (s.readV y).getLsbD j)) ∧
      t.pc = s.pc + 2#16 ∧ t.redraw = false ∧ Frame [x] [] s t) ∧
    (∃ t, exec (.xorReg x y) s = .next t ∧
      (∀ j, j < 8 → (t.readV x).getLsbD j = ((s.readV x).getLsbD j ^^ (s.readV y).getLsbD j)) ∧
      t.pc = s.pc + 2#16 ∧ t.redraw = false ∧ Frame [x] [] s t)

/-- R142: `ADD Vx, Vy` gives the sum modulo 256, and VF is 1 exactly when the sum exceeds 255, else 0. VF is written
last (R149, D9), so for x = 15 it holds the flag. -/
def Obligations.AddRegSetsCarry : Prop :=
  ∀ (x y : Reg) (s : State), ∃ t, exec (.addReg x y) s = .next t ∧
    (x ≠ vf → (t.readV x).toNat = ((s.readV x).toNat + (s.readV y).toNat) % 256) ∧
    t.readV vf = (if (s.readV x).toNat + (s.readV y).toNat > 255 then 1#8 else 0#8) ∧
    t.pc = s.pc + 2#16 ∧ t.redraw = false ∧ Frame [x, vf] [] s t

/-- R143: `SUB Vx, Vy` saturates at 0, and VF is 1 exactly when Vx > Vy (strictly), else 0 (D10). VF is written last
(R149, D9). -/
def Obligations.SubRegSaturatesAtZero : Prop :=
  ∀ (x y : Reg) (s : State), ∃ t, exec (.subReg x y) s = .next t ∧
    (x ≠ vf → (t.readV x).toNat =
      if (s.readV x).toNat > (s.readV y).toNat then (s.readV x).toNat - (s.readV y).toNat else 0) ∧
    t.readV vf = (if (s.readV x).toNat > (s.readV y).toNat then 1#8 else 0#8) ∧
    t.pc = s.pc + 2#16 ∧ t.redraw = false ∧ Frame [x, vf] [] s t

/-- R146, R86: `SHR Vx` halves Vx, whatever its `y` field, and VF is the bit shifted out. VF is written last (R149, D9). -/
def Obligations.ShrShiftsOutIntoVF : Prop :=
  ∀ (x y : Reg) (s : State), (∃ t, exec (.shr x y) s = .next t ∧
    (x ≠ vf → (t.readV x).toNat = (s.readV x).toNat / 2) ∧
    (t.readV vf).toNat = (s.readV x).toNat % 2 ∧
    t.pc = s.pc + 2#16 ∧ t.redraw = false ∧ Frame [x, vf] [] s t) ∧
    ∀ z : Reg, exec (.shr x z) s = exec (.shr x y) s

/-- R88, R150: the three undescribed slots are refused, each by its name, in every state (D12). -/
def Obligations.UnnamedSlotsAreRefused : Prop :=
  ∀ (x y : Reg) (s : State), exec (.unnamed8xy1 x y) s = .refused .unnamedAlu8xy1 ∧
    exec (.unnamed8xy7 x y) s = .refused .unnamedAlu8xy7 ∧ exec (.unnamed8xyE x y) s = .refused .unnamedAlu8xyE

/-! ### Index register and memory -/

/-- R160: `LD I, addr` sets `I` to the zero-extended address (D22). -/
def Obligations.LdISetsTheIndex : Prop :=
  ∀ (a : Addr12) (s : State), ∃ t, exec (.ldI a) s = .next t ∧ t.i.toNat = a.toNat ∧
    t.pc = s.pc + 2#16 ∧ t.redraw = false ∧ Frame [] [.index] s t

/-- R161: `ADD I, Vx` is a 16-bit sum modulo 65536 (D23), with no flag and no fault. -/
def Obligations.AddIWrapsAtSixteenBits : Prop :=
  ∀ (x : Reg) (s : State), ∃ t, exec (.addI x) s = .next t ∧
    t.i.toNat = (s.i.toNat + (s.readV x).toNat) % 65536 ∧
    t.pc = s.pc + 2#16 ∧ t.redraw = false ∧ Frame [] [.index] s t

/-- R162: `LD [I], Vx` whose last address is at most 0xFFF stores register k at `I + k` for k from 0 to x; every other
byte, `I` (D14) and every register are unchanged. -/
def Obligations.StoreRegsStoresFromI : Prop :=
  ∀ (x : Reg) (s : State), s.i.toNat + x.toNat ≤ 0xFFF → ∃ t, exec (.storeRegs x) s = .next t ∧
    (∀ r : Reg, r.toNat ≤ x.toNat → t.mem.read (effAddr s.i r.toNat) = s.readV r) ∧
    (∀ a, (∀ k, k ≤ x.toNat → a ≠ effAddr s.i k) → t.mem.read a = s.mem.read a) ∧
    t.pc = s.pc + 2#16 ∧ t.redraw = false ∧ Frame [] [.memory] s t

/-- R163: `LD Vx, [I]` whose last address is at most 0xFFF loads register k from `I + k` for k from 0 to x; the
registers above x, `I` (D14) and memory are unchanged. -/
def Obligations.LoadRegsLoadsFromI : Prop :=
  ∀ (x : Reg) (s : State), s.i.toNat + x.toNat ≤ 0xFFF → ∃ t, exec (.loadRegs x) s = .next t ∧
    (∀ r : Reg, r.toNat ≤ x.toNat → t.readV r = s.mem.read (s.i.toNat + r.toNat)) ∧
    (∀ r : Reg, x.toNat < r.toNat → t.readV r = s.readV r) ∧
    t.pc = s.pc + 2#16 ∧ t.redraw = false ∧ Frame (destRegs (.loadRegs x)) [] s t

/-- R162 and R163 are inverse: after a store of V0 to Vx, any change of registers that leaves `I` alone, and a load of
V0 to Vx, those registers hold what was stored. -/
def Obligations.StoreThenLoadRestoresRegisters : Prop :=
  ∀ (x : Reg) (s t t' u : State), exec (.storeRegs x) s = .next t → t.fault = s.fault → s.fault = 0#3 →
    t'.mem = t.mem → t'.i = t.i → exec (.loadRegs x) t' = .next u →
    ∀ r : Reg, r.toNat ≤ x.toNat → u.readV r = s.readV r

/-- R164, R204, R206: a register store, register load or sprite of at least one byte whose last address, as an unbounded
sum, is above 0xFFF takes DataRange, code 4, before any byte moves, and changes nothing else (D5, D6, D7). -/
def Obligations.TransfersPastMemoryFault : Prop :=
  (∀ (x : Reg) (s : State), s.i.toNat + x.toNat > 0xFFF →
    exec (.storeRegs x) s = .next { s with fault := 4#3, redraw := false } ∧
    exec (.loadRegs x) s = .next { s with fault := 4#3, redraw := false }) ∧
  (∀ (x y : Reg) (n : Nibble) (s : State), n.toNat > 0 → s.i.toNat + n.toNat - 1 > 0xFFF →
    exec (.drw x y n) s = .next { s with fault := 4#3, redraw := false })

/-- R60: "every read returns the value of the most recent write to that byte in step order, or the loaded or initial
value if there is none": after any sequence of writes inside memory, a byte reads as the last of them to its address
wrote it, or as before the sequence where none did. -/
def Obligations.MemoryReadsTheMostRecentWrite : Prop :=
  ∀ (m : Memory) (writes : List (Nat × Byte)) (a : Nat), (∀ w ∈ writes, w.1 < 4096) →
    (writes.foldl (fun m w => m.write w.1 w.2) m).read a =
      match writes.reverse.find? fun w => w.1 == a with
      | some w => w.2
      | none => m.read a

/-- Two memories in canonical form that read the same at every one of the 4096 addresses (R32, R50, R59) are the same data.
The canonical list is the model's choice (log entry 6). -/
def Obligations.CanonicalMemoryIsItsBytes : Prop :=
  ∀ m m' : Memory, m.wf = true → m'.wf = true → (∀ a, a < 4096 → m.read a = m'.read a) → m = m'

/-- R63: a register store is seen by the very next fetch, for a fetch of two bytes it stored: the word fetched is made
of the two registers. -/
def Obligations.StoreIsSeenByTheNextFetch : Prop :=
  ∀ (x k k' : Reg) (s t : State), s.i.toNat + x.toNat ≤ 0xFFF → exec (.storeRegs x) s = .next t →
    k'.toNat = k.toNat + 1 → k'.toNat ≤ x.toNat → t.pc.toNat = effAddr s.i k.toNat →
    t.fetchWord = wordOfBytes (s.readV k) (s.readV k')

/-! ### Display -/

/-- R170, R173: `CLS` is 00E0, turns every pixel off, outputs `redraw = 1`, and writes no flag. That a
CLS of a clear display outputs 1 too is the spec's decision D15 (R115, C9; log entry 11); that State holds the output is log
entry 2. -/
def Obligations.ClsTurnsEveryPixelOff : Prop :=
  decode 0x00E0#16 = .cls ∧ ∀ s : State, ∃ t, exec .cls s = .next t ∧ (∀ r c, t.fb.pixel r c = false) ∧
    t.pc = s.pc + 2#16 ∧ t.redraw = true ∧ Frame [] [.screen] s t

/-- R172: `draw` toggles, for each row and column of the sprite, the pixel at the wrapped place by the sprite bit (most
significant first), leaves every other pixel alone, and reports a collision exactly when a sprite bit of 1 landed on a
pixel that was on. -/
def Obligations.DrawXorsTheSpriteWithWrap : Prop :=
  ∀ (fb : Screen) (x y : Nat) (bytes : List Byte), bytes.length ≤ 15 →
    (∀ row col (r : Fin 32) (c : Fin 64) (h : row < bytes.length), col < 8 →
      r.val = (y + row) % 32 → c.val = (x + col) % 64 →
      (fb.draw x y bytes).1.pixel r c = (fb.pixel r c ^^ bytes[row].getLsbD (7 - col))) ∧
    (∀ (r : Fin 32) (c : Fin 64),
      (∀ row col, row < bytes.length → col < 8 → ¬(r.val = (y + row) % 32 ∧ c.val = (x + col) % 64)) →
      (fb.draw x y bytes).1.pixel r c = fb.pixel r c) ∧
    ((fb.draw x y bytes).2 = true ↔ ∃ (row col : Nat) (r : Fin 32) (c : Fin 64) (h : row < bytes.length),
      col < 8 ∧ r.val = (y + row) % 32 ∧ c.val = (x + col) % 64 ∧ bytes[row].getLsbD (7 - col) = true ∧
      fb.pixel r c = true)

/-- R171: `DRW Vx, Vy, n` whose last byte is at most 0xFFF (or that has no byte, D7) reads n bytes at `I`, draws them at
(Vx mod 64, Vy mod 32), both read before VF is written, and sets VF to 1 on a collision, else 0; `redraw = 1`. -/
def Obligations.DrwDrawsTheSpriteAtI : Prop :=
  ∀ (x y : Reg) (n : Nibble) (s : State), (n.toNat = 0 ∨ s.i.toNat + n.toNat - 1 ≤ 0xFFF) →
    ∃ (bytes : List Byte) (t : State), exec (.drw x y n) s = .next t ∧
      bytes.length = n.toNat ∧ (∀ k (h : k < bytes.length), bytes[k] = s.mem.read (s.i.toNat + k)) ∧
      t.fb = (s.fb.draw ((s.readV x).toNat % 64) ((s.readV y).toNat % 32) bytes).1 ∧
      t.readV vf =
        (if (s.fb.draw ((s.readV x).toNat % 64) ((s.readV y).toNat % 32) bytes).2 = true then 1#8 else 0#8) ∧
      t.pc = s.pc + 2#16 ∧ t.redraw = true ∧ Frame [vf] [.screen] s t

/-- R174 (b): "Drawing the same sprite twice at the same position restores the original pixel state"; the second draw
collides exactly when the first turned at least one pixel on, and with a 1 bit in the sprite one of the two does (C11). -/
def Obligations.DrawTwiceRestoresTheScreen : Prop :=
  ∀ (fb : Screen) (x y : Nat) (bytes : List Byte), bytes.length ≤ 15 →
    ((fb.draw x y bytes).1.draw x y bytes).1 = fb ∧
    (((fb.draw x y bytes).1.draw x y bytes).2 = true ↔
      ∃ r c, fb.pixel r c = false ∧ (fb.draw x y bytes).1.pixel r c = true) ∧
    ((∃ b ∈ bytes, b ≠ 0x00#8) →
      (fb.draw x y bytes).2 = true ∨ ((fb.draw x y bytes).1.draw x y bytes).2 = true)

/-! ### Keys and timers -/

/-- R185, R186: for a key number at most 15, `SKP` skips exactly when the key is held, `SKNP` exactly when it is not. -/
def Obligations.SkpAndSknpSkipOnTheKey : Prop :=
  ∀ (x : Reg) (s : State), (s.readV x).toNat ≤ 15 →
    (∃ t, exec (.skp x) s = .next t ∧
      t.pc = (if s.keyHeld (s.readV x).toNat = true then s.pc + 4#16 else s.pc + 2#16) ∧
      t.redraw = false ∧ Frame [] [] s t) ∧
    (∃ t, exec (.sknp x) s = .next t ∧
      t.pc = (if s.keyHeld (s.readV x).toNat = true then s.pc + 2#16 else s.pc + 4#16) ∧
      t.redraw = false ∧ Frame [] [] s t)

/-- R207, R206: for a register above 15 both take KeyIndex, code 5, and change nothing else (D5, D6, D13). -/
def Obligations.KeyNumberAboveFifteenFaults : Prop :=
  ∀ (x : Reg) (s : State), (s.readV x).toNat > 15 →
    exec (.skp x) s = .next { s with fault := 5#3, redraw := false } ∧
    exec (.sknp x) s = .next { s with fault := 5#3, redraw := false }

/-- R187: with a key held, `LD Vx, K` assigns the lowest held key to Vx, in that same step (D26). -/
def Obligations.LdKeyTakesTheLowestHeldKey : Prop :=
  ∀ (x : Reg) (s : State) (k : Nat), k < 16 → s.keyHeld k = true → (∀ j, j < k → s.keyHeld j = false) →
    ∃ t, exec (.ldKey x) s = .next t ∧ (t.readV x).toNat = k ∧
      t.pc = s.pc + 2#16 ∧ t.redraw = false ∧ Frame [x] [] s t

/-- R187: with no key held, `LD Vx, K` waits: nothing changes, `pc` included. -/
def Obligations.LdKeyWaitsForAKey : Prop :=
  ∀ (x : Reg) (s : State), (∀ k, k < 16 → s.keyHeld k = false) →
    exec (.ldKey x) s = .next { s with redraw := false }

/-- R188, R189, R190: the three moves between a register and a timer. -/
def Obligations.TimerMovesCopy : Prop :=
  ∀ (x : Reg) (s : State),
    (∃ t, exec (.ldDtVx x) s = .next t ∧ t.dt = s.readV x ∧
      t.pc = s.pc + 2#16 ∧ t.redraw = false ∧ Frame [] [.delayTimer] s t) ∧
    (∃ t, exec (.ldVxDt x) s = .next t ∧ t.readV x = s.dt ∧
      t.pc = s.pc + 2#16 ∧ t.redraw = false ∧ Frame [x] [] s t) ∧
    (∃ t, exec (.ldStVx x) s = .next t ∧ t.st = s.readV x ∧
      t.pc = s.pc + 2#16 ∧ t.redraw = false ∧ Frame [] [.soundTimer] s t)

/-! ### The whole machine -/

/-- The frame of every instruction, from the column "written by" of R20 and from R34: one that answers a next state
either took a fault and changed nothing else, or changed at most its own registers, its own parts, `pc` and `redraw`. The
one that stores to memory, `LD [I], Vx`, changes no byte but those at `I + k` for k from 0 to x (R162). -/
def Obligations.InstructionsWriteOnlyTheirOwn : Prop :=
  ∀ (i : Instr) (s t : State), exec i s = .next t →
    ((∃ k, FaultTaken k s t) ∨ Frame (destRegs i) (destParts i) s t) ∧
    ∀ x, i = .storeRegs x → ∀ a, (∀ k, k ≤ x.toNat → a ≠ effAddr s.i k) → t.mem.read a = s.mem.read a

/-- R34: VF is unchanged by every instruction that completes, but for `ADD Vx, Vy`, `SUB Vx, Vy`, `SHR Vx` and `DRW`,
which write it as a flag (to 0 or 1), and those that name it as destination: a destination x = 15, or a register load up
to x = 15. -/
def Obligations.VFIsWrittenOnlyAsFlagOrDestination : Prop :=
  ∀ (i : Instr) (s t : State), exec i s = .next t →
    match i with
    | .addReg _ _ | .subReg _ _ | .shr _ _ => t.readV vf = 0#8 ∨ t.readV vf = 1#8
    | .drw _ _ _ => (t.readV vf = 0#8 ∨ t.readV vf = 1#8) ∨ FaultTaken .dataRange s t
    | .ldByte x _ | .addByte x _ | .andReg x _ | .xorReg x _ | .ldReg x _ | .loadRegs x | .ldKey x | .ldVxDt x =>
      x ≠ vf → t.readV vf = s.readV vf
    | .cls | .ret | .jp _ | .call _ | .se _ _ | .sne _ _ | .ldI _ | .addI _ | .storeRegs _ | .skp _ | .sknp _
    | .ldDtVx _ | .ldStVx _ | .unnamed8xy1 _ _ | .unnamed8xy7 _ _ | .unnamed8xyE _ _ | .nop _ =>
      t.readV vf = s.readV vf

/-- R113, R24: an instruction that completes moves `pc` by its directive: `Skip` only for the four skips, `Jump` only for
`JP`, `CALL` and `RET`, `Wait` only for `LD Vx, K` with no key held, `Next` for every other. -/
def Obligations.PcMovesByTheDirective : Prop :=
  ∀ (i : Instr) (s t : State), s.fault = 0#3 → exec i s = .next t → t.fault = 0#3 →
    match i with
    | .jp a | .call a => t.pc = zext16 a
    | .ret => ∃ k : Fin 16, k.val + 1 = s.sp.toNat ∧ t.pc = s.stack[k.val] + 2#16
    | .se _ _ | .sne _ _ | .skp _ | .sknp _ => t.pc = s.pc + 2#16 ∨ t.pc = s.pc + 4#16
    | .ldKey _ => t.pc = if s.keys = 0#16 then s.pc else s.pc + 2#16
    | .cls | .ldByte _ _ | .addByte _ _ | .addReg _ _ | .subReg _ _ | .andReg _ _ | .xorReg _ _ | .shr _ _
    | .ldReg _ _ | .ldI _ | .addI _ | .storeRegs _ | .loadRegs _ | .drw _ _ _ | .ldDtVx _ | .ldVxDt _ | .ldStVx _
    | .unnamed8xy1 _ _ | .unnamed8xy7 _ _ | .unnamed8xyE _ _ | .nop _ => t.pc = s.pc + 2#16

/-- R115: a STEP, scheduled or not, of a running machine outputs `redraw = 1` exactly when it completed a `CLS` or a
`DRW` (D15); a STEP in the fault state outputs 0 (D16). -/
def Obligations.RedrawMarksCompletedDisplayInstructions : Prop :=
  ∀ (s t : State) (rest : List Event), s.NextIsStep rest → step s = .next t →
    (t.redraw = true ↔ s.fault = 0#3 ∧ t.fault = 0#3 ∧
      (decode s.fetchWord = .cls ∨ ∃ x y n, decode s.fetchWord = .drw x y n))

/-- R210: "No instruction can raise more than one kind of fault", and each kind has its one condition (R205). -/
def Obligations.EachInstructionRaisesOnlyItsOwnFault : Prop :=
  ∀ (i : Instr) (s t : State), s.fault = 0#3 → exec i s = .next t → t.fault ≠ 0#3 →
    (t.fault = 1#3 ∧ (∃ a, i = .call a) ∧ s.sp.toNat = 16) ∨
    (t.fault = 2#3 ∧ i = .ret ∧ s.sp.toNat = 0) ∨
    (t.fault = 4#3 ∧ ∃ x, (i = .storeRegs x ∨ i = .loadRegs x) ∧ s.i.toNat + x.toNat > 0xFFF) ∨
    (t.fault = 4#3 ∧ ∃ x y n, i = .drw x y n ∧ n.toNat > 0 ∧ s.i.toNat + n.toNat - 1 > 0xFFF) ∨
    (t.fault = 5#3 ∧ ∃ x, (i = .skp x ∨ i = .sknp x) ∧ (s.readV x).toNat > 15)

/-- R206: faults are precise (D5, D6): where a STEP, scheduled or not, of a running machine ends with the latch set, the
state is the state before it plus the latch, with `redraw = 0`, the LOAD window closed (log entry 3) and the STEP off the
schedule (log entry 4), and `pc` not advanced. -/
def Obligations.FaultsArePrecise : Prop :=
  ∀ (s t : State) (rest : List Event), s.NextIsStep rest → s.fault = 0#3 → step s = .next t → t.fault ≠ 0#3 →
    t = { s with fault := t.fault, redraw := false, loadDone := true, events := rest } ∧ t.fault.toNat ≤ 5

/-- R31, R211: only RESET clears the latch: any other step of a faulted machine leaves it as it is and moves no `pc`,
register, stack entry, memory byte or pixel. -/
def Obligations.OnlyResetClearsTheLatch : Prop :=
  ∀ s t : State, s.fault ≠ 0#3 → s.loadDone = true → (∀ rest, s.events ≠ .reset :: rest) → step s = .next t →
    t.fault = s.fault ∧ t.pc = s.pc ∧ t.v = s.v ∧ t.i = s.i ∧ t.sp = s.sp ∧ t.stack = s.stack ∧ t.mem = s.mem ∧
    t.fb = s.fb

/-- The state after RESET, under any schedule, has the invariant. -/
def Obligations.InvariantHoldsAtReset : Prop :=
  ∀ schedule : List Event, State.Inv { State.reset with events := schedule }

/-- Every step, whatever event it is, keeps the invariant: canonical memory, depth 0 to 16 (R26), `pc` at most 0x1002
(R24), latch code at most 5 (R205), live return addresses at most 0x0FFE (R130), no fault before a STEP (R200). -/
def Obligations.EveryStepKeepsTheInvariant : Prop :=
  ∀ s t : State, s.Inv → step s = .next t → t.Inv

/-- In every state of the invariant, and so in every state reachable from RESET under any schedule (R118), a step answers a
next state unless the next event is a STEP that fetches one of the three refused words (R150, D12) or a LOAD out of place
(R233, R234, D18, D25): the stop on an unreachable stack pointer never happens (R26; log entry 7), and no other word,
operand or schedule stops the machine. -/
def Obligations.ReachableStepsStopOnlyOnRefusedWordsAndLoads : Prop :=
  (∀ s : State, s.Inv → (∃ t, step s = .next t) ∨
    (s.fault = 0#3 ∧ s.pc.toNat ≤ 0x0FFE ∧ (∃ rest, s.NextIsStep rest) ∧
      ∃ x y, decode s.fetchWord = .unnamed8xy1 x y ∨ decode s.fetchWord = .unnamed8xy7 x y ∨
        decode s.fetchWord = .unnamed8xyE x y) ∨
    (∃ bytes rest, s.events = .load bytes :: rest ∧ (s.loadDone = true ∨ bytes.length > 3584))) ∧
  (∀ s : State, Reachable s → s.Inv)
end

