-- ==== Sys2Proof/Laws/Decode.lean ====
section
/-! SUPPORT. The fields of the words the encoder builds (30_encoding.md R81), a word as its fields, and what each family
of the decoder answers. -/

namespace Sys2Proof

/-! ### Slices of an appended word -/

theorem extract_append_high {m n : Nat} (a : BitVec m) (b : BitVec n) : (a ++ b).extractLsb' n m = a := by
  ext i hi
  simp [BitVec.getElem_extractLsb', BitVec.getLsbD_append, BitVec.getLsbD_eq_getElem hi]

theorem extract_append_low {m n s l : Nat} (a : BitVec m) (b : BitVec n) (h : s + l ≤ n) :
    (a ++ b).extractLsb' s l = b.extractLsb' s l := by
  ext i hi
  have : s + i < n := by omega
  simp [BitVec.getElem_extractLsb', BitVec.getLsbD_append, this]

theorem extract_append_tail {m n : Nat} (a : BitVec m) (b : BitVec n) : (a ++ b).extractLsb' 0 n = b :=
  (extract_append_low a b (by omega)).trans (by simp)

/-- Two slices that meet make one. -/
theorem extract_append_extract {w : Nat} (v : BitVec w) (s l k : Nat) :
    v.extractLsb' (s + l) k ++ v.extractLsb' s l = v.extractLsb' s (k + l) := by
  ext i hi
  simp only [BitVec.getElem_append, BitVec.getElem_extractLsb']
  split
  · rfl
  · rw [show s + l + (i - l) = s + i by omega]

/-! ### The fields of an encoded word -/

section
variable (op : Nibble) (a : Addr12) (x y : Reg) (n : Nibble) (kk : Byte)

@[simp] theorem fieldOp_encodeNNN : fieldOp (encodeNNN op a) = op := extract_append_high op a
@[simp] theorem fieldNNN_encodeNNN : fieldNNN (encodeNNN op a) = a := extract_append_tail op a
@[simp] theorem fieldOp_encodeXKK : fieldOp (encodeXKK op x kk) = op := extract_append_high op _
@[simp] theorem fieldX_encodeXKK : fieldX (encodeXKK op x kk) = x :=
  (extract_append_low op _ (by decide)).trans (extract_append_high x kk)
@[simp] theorem fieldKK_encodeXKK : fieldKK (encodeXKK op x kk) = kk :=
  (extract_append_low op _ (by decide)).trans (extract_append_tail x kk)
@[simp] theorem fieldOp_encodeXYN : fieldOp (encodeXYN op x y n) = op := extract_append_high op _
@[simp] theorem fieldX_encodeXYN : fieldX (encodeXYN op x y n) = x :=
  (extract_append_low op _ (by decide)).trans (extract_append_high x _)
@[simp] theorem fieldY_encodeXYN : fieldY (encodeXYN op x y n) = y :=
  (extract_append_low op _ (by decide)).trans ((extract_append_low x _ (by decide)).trans (extract_append_high y n))
@[simp] theorem fieldN_encodeXYN : fieldN (encodeXYN op x y n) = n :=
  (extract_append_low op _ (by decide)).trans ((extract_append_low x _ (by decide)).trans (extract_append_tail y n))

end

theorem fieldY_eq_KK (w : Word) : fieldY w = (fieldKK w).extractLsb' 4 4 := by
  ext i hi
  simp only [fieldY, fieldKK, BitVec.getElem_extractLsb', BitVec.getLsbD_extractLsb']
  simp [show 4 + i < 8 by omega]

theorem fieldN_eq_KK (w : Word) : fieldN w = (fieldKK w).extractLsb' 0 4 := by
  ext i hi
  simp only [fieldN, fieldKK, BitVec.getElem_extractLsb', BitVec.getLsbD_extractLsb']
  simp [show i < 8 by omega]

/-! ### A word is its fields -/

theorem encodeNNN_fields (w : Word) : encodeNNN (fieldOp w) (fieldNNN w) = w :=
  (extract_append_extract w 0 12 4).trans (by simp)

theorem encodeXKK_fields (w : Word) : encodeXKK (fieldOp w) (fieldX w) (fieldKK w) = w := by
  have : (fieldX w ++ fieldKK w : BitVec 12) = fieldNNN w := extract_append_extract w 0 8 4
  rw [encodeXKK, this]
  exact encodeNNN_fields w

theorem encodeXYN_fields (w : Word) : encodeXYN (fieldOp w) (fieldX w) (fieldY w) (fieldN w) = w := by
  have : (fieldY w ++ fieldN w : BitVec 8) = fieldKK w := extract_append_extract w 0 4 4
  rw [encodeXYN, this]
  exact encodeXKK_fields w

/-! ### Words and rows, nibble by nibble -/

theorem word_ext {u v : Word} (ho : fieldOp u = fieldOp v) (hx : fieldX u = fieldX v) (hy : fieldY u = fieldY v)
    (hn : fieldN u = fieldN v) : u = v := by
  rw [← encodeXYN_fields u, ← encodeXYN_fields v, ho, hx, hy, hn]

theorem extract_and {w : Nat} (u v : BitVec w) (s l : Nat) :
    (u &&& v).extractLsb' s l = u.extractLsb' s l &&& v.extractLsb' s l := by
  ext i hi
  simp [BitVec.getElem_extractLsb']

/-- A word selects a row exactly when each of its nibbles, masked, is the row's nibble (R84). -/
theorem selects_iff (row : OpcodeRow) (w : Word) : row.selects w = true ↔
    fieldOp w &&& fieldOp row.mask = fieldOp row.value ∧ fieldX w &&& fieldX row.mask = fieldX row.value ∧
    fieldY w &&& fieldY row.mask = fieldY row.value ∧ fieldN w &&& fieldN row.mask = fieldN row.value := by
  rw [OpcodeRow.selects, beq_iff_eq]
  constructor
  · rintro h
    rw [← h]
    exact ⟨(extract_and ..).symm, (extract_and ..).symm, (extract_and ..).symm, (extract_and ..).symm⟩
  · rintro ⟨ho, hx, hy, hn⟩
    exact word_ext ((extract_and ..).trans ho) ((extract_and ..).trans hx) ((extract_and ..).trans hy)
      ((extract_and ..).trans hn)

/-! ### Bytes of a word (R51) -/

@[simp] theorem wordOfBytes_bytes (w : Word) : wordOfBytes (highByte w) (lowByte w) = w :=
  (extract_append_extract w 0 8 8).trans (by simp)

@[simp] theorem highByte_wordOfBytes (hi lo : Byte) : highByte (wordOfBytes hi lo) = hi := extract_append_high hi lo

@[simp] theorem lowByte_wordOfBytes (hi lo : Byte) : lowByte (wordOfBytes hi lo) = lo := extract_append_tail hi lo

/-- "`w = MemRead(pc,1) * 256 + MemRead(pc+1,1)`" (R51). -/
theorem wordOfBytes_toNat (hi lo : Byte) : (wordOfBytes hi lo).toNat = hi.toNat * 256 + lo.toNat := by
  have := lo.isLt
  rw [wordOfBytes, BitVec.toNat_append, ← Nat.shiftLeft_add_eq_or_of_lt this, Nat.shiftLeft_eq]

end Sys2Proof
end

