-- ==== Sys2Proof/Laws/Memory.lean ====
section
/-! SUPPORT. The laws of memory: what a read answers after each write (20_memory.md R50, R60), and that every memory
operation keeps the canonical form. The read laws need no canonical form. -/

namespace Sys2Proof.Machine

@[simp] theorem Memory.unlisted_eq (a : Nat) : Memory.unlisted a = 0x00#8 := rfl

@[simp] theorem Memory.read_nil (a : Nat) : Memory.read [] a = 0x00#8 := rfl

theorem Memory.read_cons (b : Nat) (w : Byte) (m : Memory) (a : Nat) :
    Memory.read ((b, w) :: m) a = if a = b then w else Memory.read m a := rfl

theorem Memory.read_erase (m : Memory) (a a' : Nat) :
    (m.erase a).read a' = if a' = a then Memory.unlisted a else m.read a' := by
  induction m with
  | nil => simp [Memory.erase]
  | cons c rest ih =>
    obtain ⟨b, w⟩ := c
    by_cases hab : a = b
    · subst hab
      by_cases h : a' = a <;> simp_all [Memory.erase, Memory.read_cons]
    · by_cases h : a' = b
      · subst h
        simp [Memory.erase, hab, Memory.read_cons, Ne.symm hab]
      · simp [Memory.erase, hab, Memory.read_cons, h, ih]

/-- No entry of the list is at address `a`. -/
def Memory.Lacks (m : Memory) (a : Nat) : Prop := ∀ c ∈ m, c.1 ≠ a

theorem Memory.lacks_erase (m : Memory) (a : Nat) : (m.erase a).Lacks a := by
  induction m with
  | nil => simp [Memory.erase, Memory.Lacks]
  | cons c rest ih =>
    obtain ⟨b, w⟩ := c
    by_cases hab : a = b
    · simpa [Memory.erase, hab] using hab ▸ ih
    · simp only [Memory.erase, hab, if_false, Memory.Lacks, List.forall_mem_cons]
      exact ⟨fun h => hab h.symm, ih⟩

theorem Memory.read_insert (m : Memory) (a a' : Nat) (x : Byte) (h : m.Lacks a) :
    (m.insert a x).read a' = if a' = a then x else m.read a' := by
  induction m with
  | nil => rfl
  | cons c rest ih =>
    obtain ⟨b, w⟩ := c
    have hb : b ≠ a := h (b, w) (by simp)
    have ih := ih fun c hc => h c (by simp [hc])
    by_cases hlt : a < b
    · simp [Memory.insert, hlt, Memory.read_cons]
    · by_cases hab : a' = b
      · subst hab
        simp [Memory.insert, hlt, Memory.read_cons, hb]
      · simp [Memory.insert, hlt, Memory.read_cons, hab, ih]

/-- A write inside memory is seen at its own address and nowhere else (R60). -/
theorem Memory.read_write (m : Memory) (a a' : Nat) (x : Byte) (ha : a < 4096) :
    (m.write a x).read a' = if a' = a then x else m.read a' := by
  by_cases hx : x = Memory.unlisted a
  · subst hx
    simp only [Memory.write, ha, if_true, Memory.read_erase, Config.memSize]
  · simp only [Memory.write, ha, if_true, hx, if_false, Config.memSize]
    rw [Memory.read_insert _ _ _ _ (Memory.lacks_erase m a), Memory.read_erase]
    split <;> rfl

@[simp] theorem Memory.read_write_self (m : Memory) (a : Nat) (x : Byte) (ha : a < 4096) :
    (m.write a x).read a = x := by simp [Memory.read_write m a a x ha]

/-- A write leaves every other address alone, wherever it is aimed. -/
theorem Memory.read_write_of_ne (m : Memory) (a a' : Nat) (x : Byte) (h : a' ≠ a) :
    (m.write a x).read a' = m.read a' := by
  by_cases ha : a < 4096
  · simp [Memory.read_write m a a' x ha, h]
  · simp [Memory.write, ha]

/-! ### The canonical form -/

@[simp] theorem Memory.wfAbove_cons (low b : Nat) (w : Byte) (m : Memory) :
    Memory.wfAbove low ((b, w) :: m) = true ↔
      low ≤ b ∧ b < 4096 ∧ w ≠ Memory.unlisted b ∧ Memory.wfAbove (b + 1) m = true := by
  simp only [Memory.wfAbove, Bool.and_eq_true, decide_eq_true_eq, and_assoc, Config.memSize]

theorem Memory.wfAbove_mono {low low' : Nat} (hl : low' ≤ low) :
    ∀ {m : Memory}, Memory.wfAbove low m = true → Memory.wfAbove low' m = true
  | [], _ => rfl
  | (b, w) :: m, h => by
    rw [Memory.wfAbove_cons] at h ⊢
    exact ⟨le_trans hl h.1, h.2⟩

theorem Memory.wfAbove_erase (a : Nat) (m : Memory) :
    ∀ low, Memory.wfAbove low m = true → Memory.wfAbove low (m.erase a) = true := by
  induction m with
  | nil => exact fun _ h => h
  | cons c rest ih =>
    obtain ⟨b, w⟩ := c
    intro low h
    rw [Memory.wfAbove_cons] at h
    by_cases hab : a = b
    · simp only [Memory.erase, hab, if_true]
      exact Memory.wfAbove_mono (by omega) (hab ▸ ih (b + 1) h.2.2.2)
    · simp only [Memory.erase, hab, if_false]
      exact (Memory.wfAbove_cons ..).2 ⟨h.1, h.2.1, h.2.2.1, ih _ h.2.2.2⟩

theorem Memory.wfAbove_insert (a : Nat) (x : Byte) (ha : a < 4096) (hx : x ≠ Memory.unlisted a) (m : Memory) :
    ∀ low, low ≤ a → m.Lacks a → Memory.wfAbove low m = true → Memory.wfAbove low (m.insert a x) = true := by
  induction m with
  | nil =>
    intro low hl _ _
    exact (Memory.wfAbove_cons ..).2 ⟨hl, ha, hx, rfl⟩
  | cons c rest ih =>
    obtain ⟨b, w⟩ := c
    intro low hl hn h
    have hb : b ≠ a := hn (b, w) (by simp)
    rw [Memory.wfAbove_cons] at h
    by_cases hlt : a < b
    · simp only [Memory.insert, hlt, if_true]
      refine (Memory.wfAbove_cons ..).2 ⟨hl, ha, hx, (Memory.wfAbove_cons ..).2 ⟨by omega, h.2⟩⟩
    · simp only [Memory.insert, hlt, if_false]
      refine (Memory.wfAbove_cons ..).2 ⟨h.1, h.2.1, h.2.2.1, ih _ (by omega) (fun c hc => hn c (by simp [hc])) h.2.2.2⟩

/-- A write keeps the canonical form. -/
theorem Memory.wf_write (m : Memory) (a : Nat) (x : Byte) (h : m.wf = true) : (m.write a x).wf = true := by
  by_cases ha : a < 4096
  · by_cases hx : x = Memory.unlisted a
    · simp only [Memory.write, ha, if_true, hx, Config.memSize]
      exact Memory.wfAbove_erase a m 0 h
    · simp only [Memory.write, ha, if_true, hx, if_false, Config.memSize]
      exact Memory.wfAbove_insert a x ha hx _ 0 (Nat.zero_le a) (Memory.lacks_erase m a) (Memory.wfAbove_erase a m 0 h)
  · simpa [Memory.write, ha] using h

/-- A program load keeps the canonical form. -/
theorem Memory.wf_writeBytes (bs : List Byte) : ∀ (m : Memory) (a : Nat), m.wf = true → (m.writeBytes a bs).wf = true := by
  induction bs with
  | nil => exact fun _ _ h => h
  | cons b bs ih => exact fun m a h => ih _ _ (Memory.wf_write m a b h)

/-- A register store keeps the canonical form. -/
theorem State.wf_storedRegs (s : State) (base n : Nat) (h : s.mem.wf = true) : (s.storedRegs base n).wf = true := by
  induction n with
  | zero => exact h
  | succ n ih => exact Memory.wf_write _ _ _ ih

/-! ### Ranges of bytes -/

theorem Memory.length_readBytes (m : Memory) (a n : Nat) : (m.readBytes a n).length = n := by
  simp [Memory.readBytes]

theorem Memory.getElem_readBytes (m : Memory) (a n k : Nat) (h : k < (m.readBytes a n).length) :
    (m.readBytes a n)[k] = m.read (a + k) := by
  simp [Memory.readBytes]

/-- What a byte reads as after bytes are written from `a` on, all inside memory. -/
theorem Memory.read_writeBytes (bs : List Byte) : ∀ (m : Memory) (a b : Nat), a + bs.length ≤ 4096 →
    (m.writeBytes a bs).read b = if h : a ≤ b ∧ b - a < bs.length then bs[b - a] else m.read b := by
  induction bs with
  | nil => intro m a b _; simp [Memory.writeBytes]
  | cons c cs ih =>
    intro m a b hlen
    simp only [List.length_cons] at hlen
    rw [Memory.writeBytes, ih _ _ _ (by omega), Memory.read_write _ _ _ _ (by omega)]
    rcases Nat.lt_trichotomy b a with hlt | heq | hgt
    · have h1 : ¬(a + 1 ≤ b ∧ b - (a + 1) < cs.length) := by omega
      have h2 : ¬(a ≤ b ∧ b - a < (c :: cs).length) := by omega
      have h3 : b ≠ a := by omega
      rw [dif_neg h1, dif_neg h2, if_neg h3]
    · subst heq
      have h1 : ¬(b + 1 ≤ b ∧ b - (b + 1) < cs.length) := by omega
      rw [dif_neg h1]
      simp
    · obtain ⟨d, rfl⟩ : ∃ d, b = a + 1 + d := ⟨b - (a + 1), by omega⟩
      have e1 : a + 1 + d - (a + 1) = d := by omega
      have e2 : a + 1 + d - a = d + 1 := by omega
      have h3 : a + 1 + d ≠ a := by omega
      by_cases hd : d < cs.length
      · rw [dif_pos (by omega), dif_pos (by simp only [List.length_cons]; omega)]
        simp [e1, e2]
      · rw [dif_neg (by omega), dif_neg (by simp only [List.length_cons]; omega), if_neg h3]

end Sys2Proof.Machine
end

