-- ==== Sys2Proof/Laws/State.lean ====
section
/-! SUPPORT. What each update of the state does to each field: one lemma per field per update, true by rfl, so that no
later proof unfolds a record update. -/

namespace Sys2Proof.Machine

variable (s : State)

/-! ### `writeV` -/

@[simp] theorem State.writeV_v (r : Reg) (b : Byte) : (s.writeV r b).v = s.v.set r.toNat b r.isLt := rfl
@[simp] theorem State.writeV_i (r : Reg) (b : Byte) : (s.writeV r b).i = s.i := rfl
@[simp] theorem State.writeV_pc (r : Reg) (b : Byte) : (s.writeV r b).pc = s.pc := rfl
@[simp] theorem State.writeV_sp (r : Reg) (b : Byte) : (s.writeV r b).sp = s.sp := rfl
@[simp] theorem State.writeV_stack (r : Reg) (b : Byte) : (s.writeV r b).stack = s.stack := rfl
@[simp] theorem State.writeV_dt (r : Reg) (b : Byte) : (s.writeV r b).dt = s.dt := rfl
@[simp] theorem State.writeV_st (r : Reg) (b : Byte) : (s.writeV r b).st = s.st := rfl
@[simp] theorem State.writeV_mem (r : Reg) (b : Byte) : (s.writeV r b).mem = s.mem := rfl
@[simp] theorem State.writeV_fb (r : Reg) (b : Byte) : (s.writeV r b).fb = s.fb := rfl
@[simp] theorem State.writeV_keys (r : Reg) (b : Byte) : (s.writeV r b).keys = s.keys := rfl
@[simp] theorem State.writeV_fault (r : Reg) (b : Byte) : (s.writeV r b).fault = s.fault := rfl
@[simp] theorem State.writeV_redraw (r : Reg) (b : Byte) : (s.writeV r b).redraw = s.redraw := rfl
@[simp] theorem State.writeV_loadDone (r : Reg) (b : Byte) : (s.writeV r b).loadDone = s.loadDone := rfl
@[simp] theorem State.writeV_events (r : Reg) (b : Byte) : (s.writeV r b).events = s.events := rfl
@[simp] theorem State.writeV_keyHeld (r : Reg) (b : Byte) (k : Nat) : (s.writeV r b).keyHeld k = s.keyHeld k := rfl

/-! ### `writeI` -/

@[simp] theorem State.writeI_v (a : Word) : (s.writeI a).v = s.v := rfl
@[simp] theorem State.writeI_i (a : Word) : (s.writeI a).i = a := rfl
@[simp] theorem State.writeI_pc (a : Word) : (s.writeI a).pc = s.pc := rfl
@[simp] theorem State.writeI_sp (a : Word) : (s.writeI a).sp = s.sp := rfl
@[simp] theorem State.writeI_stack (a : Word) : (s.writeI a).stack = s.stack := rfl
@[simp] theorem State.writeI_dt (a : Word) : (s.writeI a).dt = s.dt := rfl
@[simp] theorem State.writeI_st (a : Word) : (s.writeI a).st = s.st := rfl
@[simp] theorem State.writeI_mem (a : Word) : (s.writeI a).mem = s.mem := rfl
@[simp] theorem State.writeI_fb (a : Word) : (s.writeI a).fb = s.fb := rfl
@[simp] theorem State.writeI_keys (a : Word) : (s.writeI a).keys = s.keys := rfl
@[simp] theorem State.writeI_fault (a : Word) : (s.writeI a).fault = s.fault := rfl
@[simp] theorem State.writeI_redraw (a : Word) : (s.writeI a).redraw = s.redraw := rfl
@[simp] theorem State.writeI_loadDone (a : Word) : (s.writeI a).loadDone = s.loadDone := rfl
@[simp] theorem State.writeI_events (a : Word) : (s.writeI a).events = s.events := rfl
@[simp] theorem State.writeI_readV (a : Word) (q : Reg) : (s.writeI a).readV q = s.readV q := rfl
@[simp] theorem State.writeI_keyHeld (a : Word) (k : Nat) : (s.writeI a).keyHeld k = s.keyHeld k := rfl

/-! ### `writeDT` -/

@[simp] theorem State.writeDT_v (b : Byte) : (s.writeDT b).v = s.v := rfl
@[simp] theorem State.writeDT_i (b : Byte) : (s.writeDT b).i = s.i := rfl
@[simp] theorem State.writeDT_pc (b : Byte) : (s.writeDT b).pc = s.pc := rfl
@[simp] theorem State.writeDT_sp (b : Byte) : (s.writeDT b).sp = s.sp := rfl
@[simp] theorem State.writeDT_stack (b : Byte) : (s.writeDT b).stack = s.stack := rfl
@[simp] theorem State.writeDT_dt (b : Byte) : (s.writeDT b).dt = b := rfl
@[simp] theorem State.writeDT_st (b : Byte) : (s.writeDT b).st = s.st := rfl
@[simp] theorem State.writeDT_mem (b : Byte) : (s.writeDT b).mem = s.mem := rfl
@[simp] theorem State.writeDT_fb (b : Byte) : (s.writeDT b).fb = s.fb := rfl
@[simp] theorem State.writeDT_keys (b : Byte) : (s.writeDT b).keys = s.keys := rfl
@[simp] theorem State.writeDT_fault (b : Byte) : (s.writeDT b).fault = s.fault := rfl
@[simp] theorem State.writeDT_redraw (b : Byte) : (s.writeDT b).redraw = s.redraw := rfl
@[simp] theorem State.writeDT_loadDone (b : Byte) : (s.writeDT b).loadDone = s.loadDone := rfl
@[simp] theorem State.writeDT_events (b : Byte) : (s.writeDT b).events = s.events := rfl
@[simp] theorem State.writeDT_readV (b : Byte) (q : Reg) : (s.writeDT b).readV q = s.readV q := rfl
@[simp] theorem State.writeDT_keyHeld (b : Byte) (k : Nat) : (s.writeDT b).keyHeld k = s.keyHeld k := rfl

/-! ### `writeST` -/

@[simp] theorem State.writeST_v (b : Byte) : (s.writeST b).v = s.v := rfl
@[simp] theorem State.writeST_i (b : Byte) : (s.writeST b).i = s.i := rfl
@[simp] theorem State.writeST_pc (b : Byte) : (s.writeST b).pc = s.pc := rfl
@[simp] theorem State.writeST_sp (b : Byte) : (s.writeST b).sp = s.sp := rfl
@[simp] theorem State.writeST_stack (b : Byte) : (s.writeST b).stack = s.stack := rfl
@[simp] theorem State.writeST_dt (b : Byte) : (s.writeST b).dt = s.dt := rfl
@[simp] theorem State.writeST_st (b : Byte) : (s.writeST b).st = b := rfl
@[simp] theorem State.writeST_mem (b : Byte) : (s.writeST b).mem = s.mem := rfl
@[simp] theorem State.writeST_fb (b : Byte) : (s.writeST b).fb = s.fb := rfl
@[simp] theorem State.writeST_keys (b : Byte) : (s.writeST b).keys = s.keys := rfl
@[simp] theorem State.writeST_fault (b : Byte) : (s.writeST b).fault = s.fault := rfl
@[simp] theorem State.writeST_redraw (b : Byte) : (s.writeST b).redraw = s.redraw := rfl
@[simp] theorem State.writeST_loadDone (b : Byte) : (s.writeST b).loadDone = s.loadDone := rfl
@[simp] theorem State.writeST_events (b : Byte) : (s.writeST b).events = s.events := rfl
@[simp] theorem State.writeST_readV (b : Byte) (q : Reg) : (s.writeST b).readV q = s.readV q := rfl
@[simp] theorem State.writeST_keyHeld (b : Byte) (k : Nat) : (s.writeST b).keyHeld k = s.keyHeld k := rfl

/-! ### `writeMem` -/

@[simp] theorem State.writeMem_v (m : Memory) : (s.writeMem m).v = s.v := rfl
@[simp] theorem State.writeMem_i (m : Memory) : (s.writeMem m).i = s.i := rfl
@[simp] theorem State.writeMem_pc (m : Memory) : (s.writeMem m).pc = s.pc := rfl
@[simp] theorem State.writeMem_sp (m : Memory) : (s.writeMem m).sp = s.sp := rfl
@[simp] theorem State.writeMem_stack (m : Memory) : (s.writeMem m).stack = s.stack := rfl
@[simp] theorem State.writeMem_dt (m : Memory) : (s.writeMem m).dt = s.dt := rfl
@[simp] theorem State.writeMem_st (m : Memory) : (s.writeMem m).st = s.st := rfl
@[simp] theorem State.writeMem_mem (m : Memory) : (s.writeMem m).mem = m := rfl
@[simp] theorem State.writeMem_fb (m : Memory) : (s.writeMem m).fb = s.fb := rfl
@[simp] theorem State.writeMem_keys (m : Memory) : (s.writeMem m).keys = s.keys := rfl
@[simp] theorem State.writeMem_fault (m : Memory) : (s.writeMem m).fault = s.fault := rfl
@[simp] theorem State.writeMem_redraw (m : Memory) : (s.writeMem m).redraw = s.redraw := rfl
@[simp] theorem State.writeMem_loadDone (m : Memory) : (s.writeMem m).loadDone = s.loadDone := rfl
@[simp] theorem State.writeMem_events (m : Memory) : (s.writeMem m).events = s.events := rfl
@[simp] theorem State.writeMem_readV (m : Memory) (q : Reg) : (s.writeMem m).readV q = s.readV q := rfl
@[simp] theorem State.writeMem_keyHeld (m : Memory) (k : Nat) : (s.writeMem m).keyHeld k = s.keyHeld k := rfl

/-! ### `writeFB` -/

@[simp] theorem State.writeFB_v (f : Screen) : (s.writeFB f).v = s.v := rfl
@[simp] theorem State.writeFB_i (f : Screen) : (s.writeFB f).i = s.i := rfl
@[simp] theorem State.writeFB_pc (f : Screen) : (s.writeFB f).pc = s.pc := rfl
@[simp] theorem State.writeFB_sp (f : Screen) : (s.writeFB f).sp = s.sp := rfl
@[simp] theorem State.writeFB_stack (f : Screen) : (s.writeFB f).stack = s.stack := rfl
@[simp] theorem State.writeFB_dt (f : Screen) : (s.writeFB f).dt = s.dt := rfl
@[simp] theorem State.writeFB_st (f : Screen) : (s.writeFB f).st = s.st := rfl
@[simp] theorem State.writeFB_mem (f : Screen) : (s.writeFB f).mem = s.mem := rfl
@[simp] theorem State.writeFB_fb (f : Screen) : (s.writeFB f).fb = f := rfl
@[simp] theorem State.writeFB_keys (f : Screen) : (s.writeFB f).keys = s.keys := rfl
@[simp] theorem State.writeFB_fault (f : Screen) : (s.writeFB f).fault = s.fault := rfl
@[simp] theorem State.writeFB_redraw (f : Screen) : (s.writeFB f).redraw = s.redraw := rfl
@[simp] theorem State.writeFB_loadDone (f : Screen) : (s.writeFB f).loadDone = s.loadDone := rfl
@[simp] theorem State.writeFB_events (f : Screen) : (s.writeFB f).events = s.events := rfl
@[simp] theorem State.writeFB_readV (f : Screen) (q : Reg) : (s.writeFB f).readV q = s.readV q := rfl
@[simp] theorem State.writeFB_keyHeld (f : Screen) (k : Nat) : (s.writeFB f).keyHeld k = s.keyHeld k := rfl

/-! ### `push` -/

@[simp] theorem State.push_v (a : Word) (h : s.sp.toNat < 16) : (s.push a h).v = s.v := rfl
@[simp] theorem State.push_i (a : Word) (h : s.sp.toNat < 16) : (s.push a h).i = s.i := rfl
@[simp] theorem State.push_pc (a : Word) (h : s.sp.toNat < 16) : (s.push a h).pc = s.pc := rfl
@[simp] theorem State.push_sp (a : Word) (h : s.sp.toNat < 16) : (s.push a h).sp = s.sp + 1 := rfl
@[simp] theorem State.push_stack (a : Word) (h : s.sp.toNat < 16) : (s.push a h).stack = s.stack.set s.sp.toNat a h := rfl
@[simp] theorem State.push_dt (a : Word) (h : s.sp.toNat < 16) : (s.push a h).dt = s.dt := rfl
@[simp] theorem State.push_st (a : Word) (h : s.sp.toNat < 16) : (s.push a h).st = s.st := rfl
@[simp] theorem State.push_mem (a : Word) (h : s.sp.toNat < 16) : (s.push a h).mem = s.mem := rfl
@[simp] theorem State.push_fb (a : Word) (h : s.sp.toNat < 16) : (s.push a h).fb = s.fb := rfl
@[simp] theorem State.push_keys (a : Word) (h : s.sp.toNat < 16) : (s.push a h).keys = s.keys := rfl
@[simp] theorem State.push_fault (a : Word) (h : s.sp.toNat < 16) : (s.push a h).fault = s.fault := rfl
@[simp] theorem State.push_redraw (a : Word) (h : s.sp.toNat < 16) : (s.push a h).redraw = s.redraw := rfl
@[simp] theorem State.push_loadDone (a : Word) (h : s.sp.toNat < 16) : (s.push a h).loadDone = s.loadDone := rfl
@[simp] theorem State.push_events (a : Word) (h : s.sp.toNat < 16) : (s.push a h).events = s.events := rfl
@[simp] theorem State.push_readV (a : Word) (h : s.sp.toNat < 16) (q : Reg) : (s.push a h).readV q = s.readV q := rfl
@[simp] theorem State.push_keyHeld (a : Word) (h : s.sp.toNat < 16) (k : Nat) : (s.push a h).keyHeld k = s.keyHeld k := rfl

/-! ### `drop` -/

@[simp] theorem State.drop_v : (s.drop).v = s.v := rfl
@[simp] theorem State.drop_i : (s.drop).i = s.i := rfl
@[simp] theorem State.drop_pc : (s.drop).pc = s.pc := rfl
@[simp] theorem State.drop_sp : (s.drop).sp = s.sp - 1 := rfl
@[simp] theorem State.drop_stack : (s.drop).stack = s.stack := rfl
@[simp] theorem State.drop_dt : (s.drop).dt = s.dt := rfl
@[simp] theorem State.drop_st : (s.drop).st = s.st := rfl
@[simp] theorem State.drop_mem : (s.drop).mem = s.mem := rfl
@[simp] theorem State.drop_fb : (s.drop).fb = s.fb := rfl
@[simp] theorem State.drop_keys : (s.drop).keys = s.keys := rfl
@[simp] theorem State.drop_fault : (s.drop).fault = s.fault := rfl
@[simp] theorem State.drop_redraw : (s.drop).redraw = s.redraw := rfl
@[simp] theorem State.drop_loadDone : (s.drop).loadDone = s.loadDone := rfl
@[simp] theorem State.drop_events : (s.drop).events = s.events := rfl
@[simp] theorem State.drop_readV (q : Reg) : (s.drop).readV q = s.readV q := rfl
@[simp] theorem State.drop_keyHeld (k : Nat) : (s.drop).keyHeld k = s.keyHeld k := rfl

/-! ### `finish` -/

@[simp] theorem State.finish_v (d : Directive) (b : Bool) : (s.finish d b).v = s.v := rfl
@[simp] theorem State.finish_i (d : Directive) (b : Bool) : (s.finish d b).i = s.i := rfl
@[simp] theorem State.finish_pc (d : Directive) (b : Bool) : (s.finish d b).pc = d.apply s.pc := rfl
@[simp] theorem State.finish_sp (d : Directive) (b : Bool) : (s.finish d b).sp = s.sp := rfl
@[simp] theorem State.finish_stack (d : Directive) (b : Bool) : (s.finish d b).stack = s.stack := rfl
@[simp] theorem State.finish_dt (d : Directive) (b : Bool) : (s.finish d b).dt = s.dt := rfl
@[simp] theorem State.finish_st (d : Directive) (b : Bool) : (s.finish d b).st = s.st := rfl
@[simp] theorem State.finish_mem (d : Directive) (b : Bool) : (s.finish d b).mem = s.mem := rfl
@[simp] theorem State.finish_fb (d : Directive) (b : Bool) : (s.finish d b).fb = s.fb := rfl
@[simp] theorem State.finish_keys (d : Directive) (b : Bool) : (s.finish d b).keys = s.keys := rfl
@[simp] theorem State.finish_fault (d : Directive) (b : Bool) : (s.finish d b).fault = s.fault := rfl
@[simp] theorem State.finish_redraw (d : Directive) (b : Bool) : (s.finish d b).redraw = b := rfl
@[simp] theorem State.finish_loadDone (d : Directive) (b : Bool) : (s.finish d b).loadDone = s.loadDone := rfl
@[simp] theorem State.finish_events (d : Directive) (b : Bool) : (s.finish d b).events = s.events := rfl
@[simp] theorem State.finish_readV (d : Directive) (b : Bool) (q : Reg) : (s.finish d b).readV q = s.readV q := rfl
@[simp] theorem State.finish_keyHeld (d : Directive) (b : Bool) (k : Nat) : (s.finish d b).keyHeld k = s.keyHeld k := rfl

/-! ### `latchFault` -/

@[simp] theorem State.latchFault_v (k : FaultKind) : (s.latchFault k).v = s.v := rfl
@[simp] theorem State.latchFault_i (k : FaultKind) : (s.latchFault k).i = s.i := rfl
@[simp] theorem State.latchFault_pc (k : FaultKind) : (s.latchFault k).pc = s.pc := rfl
@[simp] theorem State.latchFault_sp (k : FaultKind) : (s.latchFault k).sp = s.sp := rfl
@[simp] theorem State.latchFault_stack (k : FaultKind) : (s.latchFault k).stack = s.stack := rfl
@[simp] theorem State.latchFault_dt (k : FaultKind) : (s.latchFault k).dt = s.dt := rfl
@[simp] theorem State.latchFault_st (k : FaultKind) : (s.latchFault k).st = s.st := rfl
@[simp] theorem State.latchFault_mem (k : FaultKind) : (s.latchFault k).mem = s.mem := rfl
@[simp] theorem State.latchFault_fb (k : FaultKind) : (s.latchFault k).fb = s.fb := rfl
@[simp] theorem State.latchFault_keys (k : FaultKind) : (s.latchFault k).keys = s.keys := rfl
@[simp] theorem State.latchFault_fault (k : FaultKind) : (s.latchFault k).fault = k.code := rfl
@[simp] theorem State.latchFault_redraw (k : FaultKind) : (s.latchFault k).redraw = false := rfl
@[simp] theorem State.latchFault_loadDone (k : FaultKind) : (s.latchFault k).loadDone = s.loadDone := rfl
@[simp] theorem State.latchFault_events (k : FaultKind) : (s.latchFault k).events = s.events := rfl
@[simp] theorem State.latchFault_readV (k : FaultKind) (q : Reg) : (s.latchFault k).readV q = s.readV q := rfl
@[simp] theorem State.latchFault_keyHeld (k : FaultKind) (j : Nat) : (s.latchFault k).keyHeld j = s.keyHeld j := rfl

/-! ### `writeResultThenFlag` -/

@[simp] theorem State.writeResultThenFlag_v (x : Reg) (res : Byte × Bool) : (s.writeResultThenFlag x res).v = (s.v.set x.toNat res.1 x.isLt).set 15 (flagByte res.2) := rfl
@[simp] theorem State.writeResultThenFlag_i (x : Reg) (res : Byte × Bool) : (s.writeResultThenFlag x res).i = s.i := rfl
@[simp] theorem State.writeResultThenFlag_pc (x : Reg) (res : Byte × Bool) : (s.writeResultThenFlag x res).pc = s.pc := rfl
@[simp] theorem State.writeResultThenFlag_sp (x : Reg) (res : Byte × Bool) : (s.writeResultThenFlag x res).sp = s.sp := rfl
@[simp] theorem State.writeResultThenFlag_stack (x : Reg) (res : Byte × Bool) : (s.writeResultThenFlag x res).stack = s.stack := rfl
@[simp] theorem State.writeResultThenFlag_dt (x : Reg) (res : Byte × Bool) : (s.writeResultThenFlag x res).dt = s.dt := rfl
@[simp] theorem State.writeResultThenFlag_st (x : Reg) (res : Byte × Bool) : (s.writeResultThenFlag x res).st = s.st := rfl
@[simp] theorem State.writeResultThenFlag_mem (x : Reg) (res : Byte × Bool) : (s.writeResultThenFlag x res).mem = s.mem := rfl
@[simp] theorem State.writeResultThenFlag_fb (x : Reg) (res : Byte × Bool) : (s.writeResultThenFlag x res).fb = s.fb := rfl
@[simp] theorem State.writeResultThenFlag_keys (x : Reg) (res : Byte × Bool) : (s.writeResultThenFlag x res).keys = s.keys := rfl
@[simp] theorem State.writeResultThenFlag_fault (x : Reg) (res : Byte × Bool) : (s.writeResultThenFlag x res).fault = s.fault := rfl
@[simp] theorem State.writeResultThenFlag_redraw (x : Reg) (res : Byte × Bool) : (s.writeResultThenFlag x res).redraw = s.redraw := rfl
@[simp] theorem State.writeResultThenFlag_loadDone (x : Reg) (res : Byte × Bool) : (s.writeResultThenFlag x res).loadDone = s.loadDone := rfl
@[simp] theorem State.writeResultThenFlag_events (x : Reg) (res : Byte × Bool) : (s.writeResultThenFlag x res).events = s.events := rfl
@[simp] theorem State.writeResultThenFlag_keyHeld (x : Reg) (res : Byte × Bool) (k : Nat) : (s.writeResultThenFlag x res).keyHeld k = s.keyHeld k := rfl

/-! ### `tickEvent` -/

@[simp] theorem tickEvent_v : (tickEvent s).v = s.v := rfl
@[simp] theorem tickEvent_i : (tickEvent s).i = s.i := rfl
@[simp] theorem tickEvent_pc : (tickEvent s).pc = s.pc := rfl
@[simp] theorem tickEvent_sp : (tickEvent s).sp = s.sp := rfl
@[simp] theorem tickEvent_stack : (tickEvent s).stack = s.stack := rfl
@[simp] theorem tickEvent_dt : (tickEvent s).dt = tickTimer s.dt := rfl
@[simp] theorem tickEvent_st : (tickEvent s).st = tickTimer s.st := rfl
@[simp] theorem tickEvent_mem : (tickEvent s).mem = s.mem := rfl
@[simp] theorem tickEvent_fb : (tickEvent s).fb = s.fb := rfl
@[simp] theorem tickEvent_keys : (tickEvent s).keys = s.keys := rfl
@[simp] theorem tickEvent_fault : (tickEvent s).fault = s.fault := rfl
@[simp] theorem tickEvent_redraw : (tickEvent s).redraw = s.redraw := rfl
@[simp] theorem tickEvent_loadDone : (tickEvent s).loadDone = s.loadDone := rfl
@[simp] theorem tickEvent_events : (tickEvent s).events = s.events := rfl
@[simp] theorem tickEvent_readV (q : Reg) : (tickEvent s).readV q = s.readV q := rfl

/-! ### `setKeysEvent` -/

@[simp] theorem setKeysEvent_v (k : BitVec 16) : (setKeysEvent k s).v = s.v := rfl
@[simp] theorem setKeysEvent_i (k : BitVec 16) : (setKeysEvent k s).i = s.i := rfl
@[simp] theorem setKeysEvent_pc (k : BitVec 16) : (setKeysEvent k s).pc = s.pc := rfl
@[simp] theorem setKeysEvent_sp (k : BitVec 16) : (setKeysEvent k s).sp = s.sp := rfl
@[simp] theorem setKeysEvent_stack (k : BitVec 16) : (setKeysEvent k s).stack = s.stack := rfl
@[simp] theorem setKeysEvent_dt (k : BitVec 16) : (setKeysEvent k s).dt = s.dt := rfl
@[simp] theorem setKeysEvent_st (k : BitVec 16) : (setKeysEvent k s).st = s.st := rfl
@[simp] theorem setKeysEvent_mem (k : BitVec 16) : (setKeysEvent k s).mem = s.mem := rfl
@[simp] theorem setKeysEvent_fb (k : BitVec 16) : (setKeysEvent k s).fb = s.fb := rfl
@[simp] theorem setKeysEvent_keys (k : BitVec 16) : (setKeysEvent k s).keys = k := rfl
@[simp] theorem setKeysEvent_fault (k : BitVec 16) : (setKeysEvent k s).fault = s.fault := rfl
@[simp] theorem setKeysEvent_redraw (k : BitVec 16) : (setKeysEvent k s).redraw = s.redraw := rfl
@[simp] theorem setKeysEvent_loadDone (k : BitVec 16) : (setKeysEvent k s).loadDone = s.loadDone := rfl
@[simp] theorem setKeysEvent_events (k : BitVec 16) : (setKeysEvent k s).events = s.events := rfl
@[simp] theorem setKeysEvent_readV (k : BitVec 16) (q : Reg) : (setKeysEvent k s).readV q = s.readV q := rfl

/-! ### `resetEvent` -/

@[simp] theorem resetEvent_v : (resetEvent s).v = State.reset.v := rfl
@[simp] theorem resetEvent_i : (resetEvent s).i = State.reset.i := rfl
@[simp] theorem resetEvent_pc : (resetEvent s).pc = State.reset.pc := rfl
@[simp] theorem resetEvent_sp : (resetEvent s).sp = State.reset.sp := rfl
@[simp] theorem resetEvent_stack : (resetEvent s).stack = State.reset.stack := rfl
@[simp] theorem resetEvent_dt : (resetEvent s).dt = State.reset.dt := rfl
@[simp] theorem resetEvent_st : (resetEvent s).st = State.reset.st := rfl
@[simp] theorem resetEvent_mem : (resetEvent s).mem = State.reset.mem := rfl
@[simp] theorem resetEvent_fb : (resetEvent s).fb = State.reset.fb := rfl
@[simp] theorem resetEvent_keys : (resetEvent s).keys = State.reset.keys := rfl
@[simp] theorem resetEvent_fault : (resetEvent s).fault = State.reset.fault := rfl
@[simp] theorem resetEvent_redraw : (resetEvent s).redraw = State.reset.redraw := rfl
@[simp] theorem resetEvent_loadDone : (resetEvent s).loadDone = State.reset.loadDone := rfl
@[simp] theorem resetEvent_events : (resetEvent s).events = s.events := rfl

end Sys2Proof.Machine
end

