-- ==== Sys2Proof/Laws/Ops.lean ====
section
/-! SUPPORT. What each shared operation can do, said once: registers, flags, transfers, checks, the keypad, the stack,
taking a fault and completing. -/

namespace Sys2Proof.Machine

variable (s : State)

/-! ### Outcomes -/

@[simp] theorem complete_eq_next (d : Directive) (b : Bool) : complete d b s = .next (s.finish d b) := rfl

@[simp] theorem raise_eq_next (k : FaultKind) : raise k s = .next (s.latchFault k) := rfl

@[simp] theorem Directive.apply_next (pc : Word) : Directive.next.apply pc = pc + 2#16 := rfl
@[simp] theorem Directive.apply_skip (pc : Word) : Directive.skip.apply pc = pc + 4#16 := rfl
@[simp] theorem Directive.apply_jump (a pc : Word) : (Directive.jump a).apply pc = a := rfl
@[simp] theorem Directive.apply_wait (pc : Word) : Directive.wait.apply pc = pc := rfl

@[simp] theorem skipIf_true : skipIf true = .skip := rfl
@[simp] theorem skipIf_false : skipIf false = .next := rfl

theorem skipIf_apply (c : Bool) (pc : Word) : (skipIf c).apply pc = if c then pc + 4#16 else pc + 2#16 := by
  cases c <;> rfl

/-! ### Registers -/

/-- A register reads as last written; every other register is unchanged. -/
theorem State.readV_writeV (r q : Reg) (b : Byte) : (s.writeV r b).readV q = if q = r then b else s.readV q := by
  by_cases h : q = r
  · subst h; simp [State.readV, State.writeV]
  · have hn : r.toNat ≠ q.toNat := fun e => h (BitVec.eq_of_toNat_eq e.symm)
    simp [State.readV, State.writeV, h, Vector.getElem_set_ne _ _ hn]

@[simp] theorem State.readV_writeV_self (r : Reg) (b : Byte) : (s.writeV r b).readV r = b := by
  simp [State.readV_writeV]

theorem State.readV_writeV_of_ne {r q : Reg} (b : Byte) (h : q ≠ r) : (s.writeV r b).readV q = s.readV q := by
  simp [State.readV_writeV, h]

/-- The flag is the later write (R149): VF holds it, x (if it is not VF) the result, all else is unchanged. -/
theorem State.readV_writeResultThenFlag (x q : Reg) (res : Byte × Bool) :
    (s.writeResultThenFlag x res).readV q =
      if q = vf then flagByte res.2 else if q = x then res.1 else s.readV q := by
  simp [State.writeResultThenFlag, State.readV_writeV]

/-! ### Flags and arithmetic, as numbers -/

@[simp] theorem flagByte_true : flagByte true = 1#8 := rfl
@[simp] theorem flagByte_false : flagByte false = 0#8 := rfl

theorem addNoFlag_toNat (a b : Byte) : (addNoFlag a b).toNat = (a.toNat + b.toNat) % 256 := by
  simp [addNoFlag]

theorem addCarry_toNat (a b : Byte) : (addCarry a b).1.toNat = (a.toNat + b.toNat) % 256 := by
  simp [addCarry]

theorem addCarry_flag (a b : Byte) : (addCarry a b).2 = true ↔ a.toNat + b.toNat > 255 := by
  simp [addCarry]

theorem subSaturating_toNat (a b : Byte) : (subSaturating a b).1.toNat = a.toNat - b.toNat := by
  unfold subSaturating
  split
  · simp only [BitVec.toNat_ofNat]
    have := a.isLt
    omega
  · simp only [BitVec.toNat_ofNat]
    omega

theorem subSaturating_flag (a b : Byte) : (subSaturating a b).2 = true ↔ a.toNat > b.toNat := by
  unfold subSaturating
  split <;> simp_all

theorem shiftRightOne_toNat (a : Byte) : (shiftRightOne a).1.toNat = a.toNat / 2 := by
  have := a.isLt
  simp only [shiftRightOne, BitVec.toNat_ofNat]
  omega

theorem shiftRightOne_flag (a : Byte) : (shiftRightOne a).2 = true ↔ a.toNat % 2 = 1 := by
  simp [shiftRightOne]

theorem addIndex_toNat (i : Word) (a : Byte) : (addIndex i a).toNat = (i.toNat + a.toNat) % 65536 := by
  simp [addIndex]

theorem tickTimer_toNat (t : Byte) : (tickTimer t).toNat = t.toNat - 1 := by
  have := t.isLt
  unfold tickTimer
  split
  · simp only [BitVec.toNat_ofNat]; omega
  · simp only [BitVec.toNat_ofNat]; omega

/-! ### The checks (R204, R207) -/

theorem transferFits_iff (i : Word) (len : Nat) : transferFits i len = true ↔ len = 0 ∨ i.toNat + len ≤ 4096 := by
  rw [transferFits, decide_eq_true_iff, effAddr]
  omega

theorem withTransfer_of_fits (len : Nat) (k : Nat → Result) (h : len = 0 ∨ s.i.toNat + len ≤ 4096) :
    withTransfer len s k = k s.i.toNat := by
  simp [withTransfer, (transferFits_iff s.i len).2 h, effAddr]

theorem withTransfer_of_overrun (len : Nat) (k : Nat → Result) (h0 : len ≠ 0) (h : s.i.toNat + len > 4096) :
    withTransfer len s k = .next (s.latchFault .dataRange) := by
  have : transferFits s.i len = false := by
    rw [Bool.eq_false_iff, ne_eq, transferFits_iff]
    omega
  simp [withTransfer, this]

theorem withKeyIndex_of_key (r : Reg) (k : Nat → Result) (h : (s.readV r).toNat ≤ 15) :
    withKeyIndex r s k = k (s.readV r).toNat := by
  simp [withKeyIndex, Nat.not_lt.2 h]

theorem withKeyIndex_of_high (r : Reg) (k : Nat → Result) (h : (s.readV r).toNat > 15) :
    withKeyIndex r s k = .next (s.latchFault .keyIndex) := by
  simp [withKeyIndex, h]

/-! ### Transfers (R162, R163) -/

/-- Only the registers change. -/
theorem State.loadedRegs_eq (base n : Nat) : s.loadedRegs base n = { s with v := (s.loadedRegs base n).v } := by
  induction n with
  | zero => rfl
  | succ n ih => rw [State.loadedRegs, State.writeV, ih]

@[simp] theorem State.loadedRegs_i (base n : Nat) : (s.loadedRegs base n).i = s.i := by rw [State.loadedRegs_eq]
@[simp] theorem State.loadedRegs_pc (base n : Nat) : (s.loadedRegs base n).pc = s.pc := by rw [State.loadedRegs_eq]
@[simp] theorem State.loadedRegs_sp (base n : Nat) : (s.loadedRegs base n).sp = s.sp := by rw [State.loadedRegs_eq]
@[simp] theorem State.loadedRegs_stack (base n : Nat) : (s.loadedRegs base n).stack = s.stack := by
  rw [State.loadedRegs_eq]
@[simp] theorem State.loadedRegs_dt (base n : Nat) : (s.loadedRegs base n).dt = s.dt := by rw [State.loadedRegs_eq]
@[simp] theorem State.loadedRegs_st (base n : Nat) : (s.loadedRegs base n).st = s.st := by rw [State.loadedRegs_eq]
@[simp] theorem State.loadedRegs_mem (base n : Nat) : (s.loadedRegs base n).mem = s.mem := by rw [State.loadedRegs_eq]
@[simp] theorem State.loadedRegs_fb (base n : Nat) : (s.loadedRegs base n).fb = s.fb := by rw [State.loadedRegs_eq]
@[simp] theorem State.loadedRegs_keys (base n : Nat) : (s.loadedRegs base n).keys = s.keys := by
  rw [State.loadedRegs_eq]
@[simp] theorem State.loadedRegs_fault (base n : Nat) : (s.loadedRegs base n).fault = s.fault := by
  rw [State.loadedRegs_eq]
@[simp] theorem State.loadedRegs_loadDone (base n : Nat) : (s.loadedRegs base n).loadDone = s.loadDone := by
  rw [State.loadedRegs_eq]
@[simp] theorem State.loadedRegs_events (base n : Nat) : (s.loadedRegs base n).events = s.events := by
  rw [State.loadedRegs_eq]

/-- Register `k` below `n` receives the byte at `base + k`; the others keep their values. -/
theorem State.readV_loadedRegs (base : Nat) (q : Reg) :
    ∀ n, n ≤ 16 → (s.loadedRegs base n).readV q = if q.toNat < n then s.mem.read (base + q.toNat) else s.readV q
  | 0, _ => rfl
  | n + 1, h => by
    rw [State.loadedRegs, State.readV_writeV, State.readV_loadedRegs base q n (by omega)]
    have hq : q = BitVec.ofNat 4 n ↔ q.toNat = n := by
      rw [← BitVec.toNat_inj, BitVec.toNat_ofNat, Nat.mod_eq_of_lt (by omega)]
    by_cases he : q.toNat = n
    · rw [if_pos (hq.2 he), if_pos (by omega), he]
    · rw [if_neg (mt hq.1 he)]
      by_cases hl : q.toNat < n
      · rw [if_pos hl, if_pos (by omega)]
      · rw [if_neg hl, if_neg (by omega)]

/-- Byte `base + k` holds register `k` for `k` below `n`; every other byte is unchanged. -/
theorem State.read_storedRegs (base a : Nat) :
    ∀ n, base + n ≤ 4096 → (s.storedRegs base n).read a =
      if base ≤ a ∧ a < base + n then s.readV (BitVec.ofNat 4 (a - base)) else s.mem.read a
  | 0, _ => by rw [State.storedRegs, if_neg (by omega)]
  | n + 1, h => by
    rw [State.storedRegs, Memory.read_write _ _ _ _ (by omega), State.read_storedRegs base a n (by omega)]
    by_cases he : a = base + n
    · subst he
      rw [if_pos rfl, if_pos (by omega), Nat.add_sub_cancel_left]
    · rw [if_neg he]
      by_cases hl : base ≤ a ∧ a < base + n
      · rw [if_pos hl, if_pos (by omega)]
      · rw [if_neg hl, if_neg (by omega)]

/-! ### The keypad (R187) -/

/-- No key is held exactly when the snapshot is 0. -/
theorem State.lowestKey_eq_none : s.lowestKey = none ↔ ∀ k, k < 16 → s.keyHeld k = false := by
  simp [State.lowestKey]

/-- The key found is held and no lower key is. -/
theorem State.lowestKey_eq_some (k : Nat) :
    s.lowestKey = some k ↔ k < 16 ∧ s.keyHeld k = true ∧ ∀ j, j < k → s.keyHeld j = false := by
  rw [State.lowestKey, List.find?_range_eq_some]
  simp only [List.mem_range, Bool.not_eq_true']
  tauto

/-! ### The return stack (R130, R132) -/

theorem State.top_of_depth (h : s.sp.toNat ≤ 16) :
    s.top = some (s.stack[s.sp.toNat - 1]'(by omega)) := by
  have : s.sp.toNat - 1 < 16 := by omega
  simp [State.top, this]

theorem State.top_of_deep (h : 16 < s.sp.toNat) : s.top = none := by
  have : ¬ s.sp.toNat - 1 < 16 := by omega
  simp [State.top, this]

end Sys2Proof.Machine
end

