-- ==== Sys2Proof/Laws/Display.lean ====
section
/-! SUPPORT. The laws of the screen (44_display.md R172, R173, R174): what each pixel is after a toggle, a clear and a
draw, and when a draw collides. A draw is a fold of toggles over its targets, which are pairwise distinct (R174 (a)). -/

namespace Sys2Proof.Machine

/-! ### One pixel -/

theorem Screen.pixel_toggle (fb : Screen) (r q : Fin 32) (c d : Fin 64) (bit : Bool) :
    (fb.toggle r c bit).pixel q d = if q = r ∧ d = c then fb.pixel r c ^^ bit else fb.pixel q d := by
  by_cases hr : q = r
  · subst hr
    by_cases hc : d = c
    · subst hc; simp [Screen.pixel, Screen.toggle]
    · have hn : c.val ≠ d.val := fun e => hc (Fin.ext e.symm)
      simp [Screen.pixel, Screen.toggle, hc, Vector.getElem_set_ne _ _ hn]
  · have hn : r.val ≠ q.val := fun e => hr (Fin.ext e.symm)
    simp [Screen.pixel, Screen.toggle, hr, Vector.getElem_set_ne _ _ hn]

@[simp] theorem Screen.pixel_cleared (r : Fin 32) (c : Fin 64) : Screen.cleared.pixel r c = false := by
  simp [Screen.pixel, Screen.cleared]

/-- A screen is its pixels. -/
theorem Screen.ext_pixel {f g : Screen} (h : ∀ r c, f.pixel r c = g.pixel r c) : f = g := by
  refine Vector.ext fun r hr => Vector.ext fun c hc => ?_
  exact h ⟨r, hr⟩ ⟨c, hc⟩

/-! ### A fold of toggles -/

/-- A target of a draw: a pixel and the sprite bit that lands on it. -/
abbrev Target := Fin 32 × Fin 64 × Bool

/-- The collision test and the toggle of one target. -/
def toggleTarget (acc : Screen × Bool) (t : Target) : Screen × Bool :=
  (acc.1.toggle t.1 t.2.1 t.2.2, acc.2 || (t.2.2 && acc.1.pixel t.1 t.2.1))

/-- The sprite bit of the target at a pixel; 0 where no target is. -/
def bitAt (ts : List Target) (r : Fin 32) (c : Fin 64) : Bool :=
  ts.any fun t => decide (t.1 = r ∧ t.2.1 = c) && t.2.2

/-- No two targets are the same pixel. -/
def Apart (ts : List Target) : Prop := ts.Pairwise fun t u => ¬(t.1 = u.1 ∧ t.2.1 = u.2.1)

theorem bitAt_cons (t : Target) (ts : List Target) (r : Fin 32) (c : Fin 64) :
    bitAt (t :: ts) r c = ((decide (t.1 = r ∧ t.2.1 = c) && t.2.2) || bitAt ts r c) := by
  simp [bitAt]

theorem bitAt_of_apart {t : Target} {ts : List Target} (h : Apart (t :: ts)) : bitAt ts t.1 t.2.1 = false := by
  rw [bitAt, List.any_eq_false]
  intro u hu
  have := (List.pairwise_cons.1 h).1 u hu
  simp only [Bool.and_eq_true, decide_eq_true_eq, not_and]
  intro hp
  exact absurd ⟨hp.1.symm, hp.2.symm⟩ this

/-- After a fold of toggles over targets that are apart, each pixel is the old one xor its target's bit. -/
theorem pixel_foldl_toggle (ts : List Target) : ∀ (acc : Screen × Bool), Apart ts → ∀ r c,
    (ts.foldl toggleTarget acc).1.pixel r c = (acc.1.pixel r c ^^ bitAt ts r c) := by
  induction ts with
  | nil => intro acc _ r c; simp [bitAt]
  | cons t ts ih =>
    intro acc h r c
    have h' := List.pairwise_cons.1 h
    rw [List.foldl_cons, ih _ h'.2, bitAt_cons]
    simp only [toggleTarget, Screen.pixel_toggle]
    by_cases ht : r = t.1 ∧ c = t.2.1
    · obtain ⟨rfl, rfl⟩ := ht
      simp [bitAt_of_apart h]
    · have : ¬(t.1 = r ∧ t.2.1 = c) := fun e => ht ⟨e.1.symm, e.2.symm⟩
      simp [ht, this]

/-- The flag after the fold: set before, or some target with bit 1 is on a pixel that was on. -/
theorem flag_foldl_toggle (ts : List Target) : ∀ (acc : Screen × Bool), Apart ts →
    (ts.foldl toggleTarget acc).2 = (acc.2 || ts.any fun t => t.2.2 && acc.1.pixel t.1 t.2.1) := by
  induction ts with
  | nil => intro acc _; simp
  | cons t ts ih =>
    intro acc h
    have h' := List.pairwise_cons.1 h
    rw [List.foldl_cons, ih _ h'.2, List.any_cons, toggleTarget, Bool.or_assoc]
    congr 2
    rw [Bool.eq_iff_iff, List.any_eq_true, List.any_eq_true]
    refine exists_congr fun u => and_congr_right fun hu => ?_
    have hne : ¬(u.1 = t.1 ∧ u.2.1 = t.2.1) := fun e => h'.1 u hu ⟨e.1.symm, e.2.symm⟩
    simp [Screen.pixel_toggle, hne]

/-! ### The targets of a draw -/

/-- The eight targets of one sprite byte. -/
def byteTargets (x y row : Nat) (b : Byte) : List Target :=
  (List.range 8).map fun col => (drawRow y row, drawCol x col, spriteBit b col)

/-- The targets of the sprite rows from `row` on. -/
def rowTargets (x y : Nat) : (row : Nat) → List Byte → List Target
  | _, [] => []
  | row, b :: bs => byteTargets x y row b ++ rowTargets x y (row + 1) bs

theorem drawByte_eq_foldl (x y row : Nat) (b : Byte) (acc : Screen × Bool) :
    drawByte x y row b acc = (byteTargets x y row b).foldl toggleTarget acc := by
  rw [drawByte, byteTargets, List.foldl_map]
  rfl

theorem drawRows_eq_foldl (x y : Nat) (bs : List Byte) : ∀ (row : Nat) (acc : Screen × Bool),
    drawRows x y row bs acc = (rowTargets x y row bs).foldl toggleTarget acc := by
  induction bs with
  | nil => exact fun _ _ => rfl
  | cons b bs ih => intro row acc; rw [drawRows, rowTargets, List.foldl_append, ih, drawByte_eq_foldl]

/-- A target is a sprite bit at its wrapped place (R172). -/
theorem mem_rowTargets (x y : Nat) (bs : List Byte) : ∀ (row : Nat) (t : Target), t ∈ rowTargets x y row bs ↔
    ∃ k, ∃ h : k < bs.length, ∃ col < 8, t = (drawRow y (row + k), drawCol x col, spriteBit bs[k] col) := by
  induction bs with
  | nil => intro row t; simp [rowTargets]
  | cons b bs ih =>
    intro row t
    rw [rowTargets, List.mem_append, ih]
    constructor
    · rintro (h | ⟨k, hk, col, hc, rfl⟩)
      · obtain ⟨col, hc, rfl⟩ := List.mem_map.1 h
        exact ⟨0, by simp, col, List.mem_range.1 hc, by simp⟩
      · exact ⟨k + 1, by simpa using hk, col, hc, by simp [Nat.add_assoc, Nat.add_comm 1 k]⟩
    · rintro ⟨k, hk, col, hc, rfl⟩
      cases k with
      | zero => exact Or.inl (List.mem_map.2 ⟨col, List.mem_range.2 hc, by simp⟩)
      | succ k =>
        refine Or.inr ⟨k, by simpa using hk, col, hc, ?_⟩
        simp [Nat.add_assoc, Nat.add_comm 1 k]

theorem drawCol_inj {x a b : Nat} (ha : a < 8) (hb : b < 8) (h : drawCol x a = drawCol x b) : a = b := by
  have : (x + a) % 64 = (x + b) % 64 := congrArg Fin.val h
  omega

theorem drawRow_inj {y a b : Nat} (hab : a ≤ b) (hb : b < a + 32) (h : drawRow y a = drawRow y b) : a = b := by
  have : (y + a) % 32 = (y + b) % 32 := congrArg Fin.val h
  omega

/-- "The 8 x len target positions of one call are pairwise distinct" (R174 (a)). -/
theorem apart_rowTargets (x y : Nat) (bs : List Byte) : ∀ (row : Nat), bs.length ≤ 32 → Apart (rowTargets x y row bs) := by
  induction bs with
  | nil => intro _ _; exact List.Pairwise.nil
  | cons b bs ih =>
    intro row hlen
    simp only [List.length_cons] at hlen
    refine List.pairwise_append.2 ⟨?_, ih _ (by omega), ?_⟩
    · refine List.pairwise_map.2 ((List.pairwise_lt_range (n := 8)).imp_of_mem ?_)
      intro p q hp hq hlt h
      exact absurd (drawCol_inj (List.mem_range.1 hp) (List.mem_range.1 hq) h.2) (by omega)
    · intro t ht u hu h
      obtain ⟨col, _, rfl⟩ := List.mem_map.1 ht
      obtain ⟨k, hk, col', _, rfl⟩ := (mem_rowTargets x y bs (row + 1) u).1 hu
      have := drawRow_inj (by omega) (by omega) h.1
      omega

/-! ### Draw -/

/-- What `draw` does to each pixel, R172: the old pixel xor the bit of its target. -/
theorem Screen.pixel_draw (fb : Screen) (x y : Nat) (bs : List Byte) (h : bs.length ≤ 32) (r : Fin 32) (c : Fin 64) :
    (fb.draw x y bs).1.pixel r c = (fb.pixel r c ^^ bitAt (rowTargets x y 0 bs) r c) := by
  rw [Screen.draw, drawRows_eq_foldl, pixel_foldl_toggle _ _ (apart_rowTargets x y bs 0 h)]

/-- When `draw` collides, R174 (a): "iff at least one sprite-bit-1 lands on a pixel already on before that draw call". -/
theorem Screen.collision_draw (fb : Screen) (x y : Nat) (bs : List Byte) (h : bs.length ≤ 32) :
    (fb.draw x y bs).2 = (rowTargets x y 0 bs).any fun t => t.2.2 && fb.pixel t.1 t.2.1 := by
  rw [Screen.draw, drawRows_eq_foldl, flag_foldl_toggle _ _ (apart_rowTargets x y bs 0 h), Bool.false_or]

/-- The bit of a pixel that is the target of sprite row `k` and column `col`. -/
theorem bitAt_rowTargets (x y : Nat) (bs : List Byte) (h : bs.length ≤ 32) (k col : Nat) (hk : k < bs.length)
    (hc : col < 8) : bitAt (rowTargets x y 0 bs) (drawRow y k) (drawCol x col) = spriteBit bs[k] col := by
  rw [Bool.eq_iff_iff, bitAt, List.any_eq_true]
  constructor
  · rintro ⟨t, ht, hb⟩
    obtain ⟨k', hk', col', hc', rfl⟩ := (mem_rowTargets x y bs 0 t).1 ht
    simp only [Nat.zero_add, Bool.and_eq_true, decide_eq_true_eq] at hb
    have hcol := drawCol_inj hc' hc hb.1.2
    have hrow : k' = k := by
      rcases Nat.le_total k' k with hle | hle
      · exact drawRow_inj hle (by omega) hb.1.1
      · exact (drawRow_inj hle (by omega) hb.1.1.symm).symm
    subst hcol hrow
    exact hb.2
  · intro hb
    exact ⟨_, (mem_rowTargets x y bs 0 _).2 ⟨k, hk, col, hc, rfl⟩, by simp [hb]⟩

/-- A pixel that is no target has bit 0. -/
theorem bitAt_rowTargets_of_not (x y : Nat) (bs : List Byte) (r : Fin 32) (c : Fin 64)
    (h : ∀ k < bs.length, ∀ col < 8, ¬(drawRow y k = r ∧ drawCol x col = c)) :
    bitAt (rowTargets x y 0 bs) r c = false := by
  rw [bitAt, List.any_eq_false]
  intro t ht
  obtain ⟨k, hk, col, hc, rfl⟩ := (mem_rowTargets x y bs 0 t).1 ht
  have := h k hk col hc
  simp only [Nat.zero_add, Bool.and_eq_true, decide_eq_true_eq, not_and]
  intro hp
  exact absurd hp this

end Sys2Proof.Machine
end

