-- ==== Sys2Proof/Laws/EndOfRun.lean ====
section
/-! SUPPORT. What the end-of-run observation answers (40_step_cycle.md R120): the state after some number of events of
the same run, and for the given address the first one there. -/

namespace Sys2Proof.Machine

variable {stop : Word} {n : Nat} {s t : State}

theorem observeRun_of_fault (h : s.fault ≠ 0#3) : observeRun stop n s = .faulted s := by
  cases n <;> exact if_pos h

theorem observeRun_of_pc (hf : s.fault = 0#3) (h : s.pc = stop) : observeRun stop n s = .atAddress s := by
  cases n <;> simp [observeRun, hf, h]

theorem observeRun_zero (hf : s.fault = 0#3) (h : s.pc ≠ stop) : observeRun stop 0 s = .eventsOver s := by
  simp [observeRun, hf, h]

theorem observeRun_next (hf : s.fault = 0#3) (h : s.pc ≠ stop) (hs : step s = .next t) :
    observeRun stop (n + 1) s = observeRun stop n t := by
  simp [observeRun, hf, h, hs]

/-- One event observed: the run has ended in `s`, or the model has no move, or the observation goes on. -/
theorem observeRun_succ_cases (stop : Word) (n : Nat) (s : State) :
    observeRun stop (n + 1) s = .faulted s ∨ (s.pc = stop ∧ observeRun stop (n + 1) s = .atAddress s) ∨
    (s.pc ≠ stop ∧ observeRun stop (n + 1) s = .noMove s) ∨
    ∃ t, s.pc ≠ stop ∧ step s = .next t ∧ observeRun stop (n + 1) s = observeRun stop n t := by
  by_cases hf : s.fault = 0#3
  · by_cases hp : s.pc = stop
    · exact .inr (.inl ⟨hp, observeRun_of_pc hf hp⟩)
    · cases hs : step s with
      | next t => exact .inr (.inr (.inr ⟨t, hp, rfl, observeRun_next hf hp hs⟩))
      | fault _ | refused _ => exact .inr (.inr (.inl ⟨hp, by simp [observeRun, hf, hp, hs]⟩))
  · exact .inl (observeRun_of_fault hf)

/-- The state observed at the address is the one after `k` events, its `pc` is the address, its latch is clear, and
after fewer events `pc` was elsewhere. -/
theorem observeRun_atAddress_first (h : observeRun stop n s = .atAddress t) :
    t.pc = stop ∧ t.fault = 0#3 ∧ ∃ k, k ≤ n ∧ core.run k s = .next t ∧
      ∀ j, j < k → ∀ u : State, core.run j s = .next u → u.pc ≠ stop := by
  induction n generalizing s with
  | zero =>
    unfold observeRun at h
    split at h
    · exact absurd h (by simp)
    · next hf =>
      split at h
      · next hp =>
        cases h
        exact ⟨hp, not_not.1 hf, 0, le_rfl, rfl, fun j hj => absurd hj (Nat.not_lt_zero j)⟩
      · exact absurd h (by simp)
  | succ n ih =>
    by_cases hf : s.fault = 0#3
    · rcases observeRun_succ_cases stop n s with e | ⟨hp, e⟩ | ⟨_, e⟩ | ⟨u, hp, hs, e⟩ <;> rw [e] at h
      · exact absurd h (by simp)
      · cases h
        exact ⟨hp, hf, 0, Nat.zero_le _, rfl, fun j hj => absurd hj (Nat.not_lt_zero j)⟩
      · exact absurd h (by simp)
      · obtain ⟨hpc, hft, k, hk, hr, hfirst⟩ := ih h
        have run_succ : ∀ j, core.run (j + 1) s = core.run j u := fun j => by
          have hc : core.step s = .next u := hs
          simp only [Host.Core.run, hc]
        refine ⟨hpc, hft, k + 1, Nat.succ_le_succ hk, (run_succ k).trans hr, fun j hj v hv => ?_⟩
        cases j with
        | zero => cases hv; exact hp
        | succ j => exact hfirst j (Nat.lt_of_succ_lt_succ hj) v ((run_succ j).symm.trans hv)
    · rw [observeRun_of_fault hf] at h
      exact absurd h (by simp)

end Sys2Proof.Machine
end

