-- ==== Sys2Proof/Laws/Exec.lean ====
section
/-! SUPPORT. Each instruction's outcome, said once: an equation for an instruction that always completes, and for one
that can fault or wait the cases in which it answers a next state. Later proofs cite these and unfold no meaning. -/

namespace Sys2Proof.Machine

variable {s t : State}

/-! ### Instructions that always complete -/

theorem exec_cls : exec .cls s = .next ((s.writeFB Screen.cleared).finish .next true) := rfl

theorem exec_jp (a : Addr12) : exec (.jp a) s = .next (s.finish (.jump (zext16 a)) false) := rfl

theorem exec_se (x : Reg) (kk : Byte) : exec (.se x kk) s = .next (s.finish (skipIf (decide (s.readV x = kk))) false) := rfl

theorem exec_sne (x : Reg) (kk : Byte) : exec (.sne x kk) s = .next (s.finish (skipIf (decide (s.readV x ≠ kk))) false) := rfl

theorem exec_ldByte (x : Reg) (kk : Byte) : exec (.ldByte x kk) s = .next ((s.writeV x kk).finish .next false) := rfl

theorem exec_addByte (x : Reg) (kk : Byte) : exec (.addByte x kk) s = .next ((s.writeV x (addNoFlag (s.readV x) kk)).finish .next false) := rfl

theorem exec_addReg (x y : Reg) : exec (.addReg x y) s = .next ((s.writeResultThenFlag x (addCarry (s.readV x) (s.readV y))).finish .next false) := rfl

theorem exec_subReg (x y : Reg) : exec (.subReg x y) s = .next ((s.writeResultThenFlag x (subSaturating (s.readV x) (s.readV y))).finish .next false) := rfl

theorem exec_andReg (x y : Reg) : exec (.andReg x y) s = .next ((s.writeV x (s.readV x &&& s.readV y)).finish .next false) := rfl

theorem exec_xorReg (x y : Reg) : exec (.xorReg x y) s = .next ((s.writeV x (s.readV x ^^^ s.readV y)).finish .next false) := rfl

theorem exec_shr (x y : Reg) : exec (.shr x y) s = .next ((s.writeResultThenFlag x (shiftRightOne (s.readV x))).finish .next false) := rfl

theorem exec_ldReg (x y : Reg) : exec (.ldReg x y) s = .next ((s.writeV x (s.readV y)).finish .next false) := rfl

theorem exec_ldI (a : Addr12) : exec (.ldI a) s = .next ((s.writeI (zext16 a)).finish .next false) := rfl

theorem exec_addI (x : Reg) : exec (.addI x) s = .next ((s.writeI (addIndex s.i (s.readV x))).finish .next false) := rfl

theorem exec_ldDtVx (x : Reg) : exec (.ldDtVx x) s = .next ((s.writeDT (s.readV x)).finish .next false) := rfl

theorem exec_ldVxDt (x : Reg) : exec (.ldVxDt x) s = .next ((s.writeV x s.dt).finish .next false) := rfl

theorem exec_ldStVx (x : Reg) : exec (.ldStVx x) s = .next ((s.writeST (s.readV x)).finish .next false) := rfl

theorem exec_nop (w : Word) : exec (.nop w) s = .next (s.finish .next false) := rfl

/-! ### The two checks -/

/-- A transfer that answers a next state overran memory and faulted, or fits and went on (R204). -/
theorem withTransfer_cases {len : Nat} {k : Nat → Result} (h : withTransfer len s k = .next t) :
    (len ≠ 0 ∧ s.i.toNat + len > 4096 ∧ t = s.latchFault .dataRange) ∨
    ((len = 0 ∨ s.i.toNat + len ≤ 4096) ∧ k s.i.toNat = .next t) := by
  by_cases hf : len = 0 ∨ s.i.toNat + len ≤ 4096
  · exact .inr ⟨hf, (withTransfer_of_fits s len k hf).symm.trans h⟩
  · rw [withTransfer_of_overrun s len k (by omega) (by omega)] at h
    exact .inl ⟨by omega, by omega, (Host.Outcome.next.inj h).symm⟩

/-- A key test that answers a next state had a number above 15 and faulted, or a key number and went on (R207). -/
theorem withKeyIndex_cases {r : Reg} {k : Nat → Result} (h : withKeyIndex r s k = .next t) :
    ((s.readV r).toNat > 15 ∧ t = s.latchFault .keyIndex) ∨
    ((s.readV r).toNat ≤ 15 ∧ k (s.readV r).toNat = .next t) := by
  by_cases hf : (s.readV r).toNat ≤ 15
  · exact .inr ⟨hf, (withKeyIndex_of_key s r k hf).symm.trans h⟩
  · rw [withKeyIndex_of_high s r k (by omega)] at h
    exact .inl ⟨by omega, (Host.Outcome.next.inj h).symm⟩

/-! ### Instructions that can fault or wait -/

/-- `CALL` (R132). -/
theorem exec_call_cases {a : Addr12} (h : exec (.call a) s = .next t) :
    (s.sp.toNat = 16 ∧ t = s.latchFault .stackOverflow) ∨
    ∃ hs : s.sp.toNat < 16, t = (s.push s.pc hs).finish (.jump (zext16 a)) false := by
  simp only [exec, execCall] at h
  split at h
  · next e => exact .inl ⟨congrArg BitVec.toNat e, (Host.Outcome.next.inj h).symm⟩
  · split at h
    · next hs => exact .inr ⟨hs, (Host.Outcome.next.inj h).symm⟩
    · exact absurd h (by simp)

/-- `RET` (R130): the address popped is in the entry below the depth. -/
theorem exec_ret_cases (h : exec .ret s = .next t) :
    (s.sp.toNat = 0 ∧ t = s.latchFault .stackUnderflow) ∨
    ∃ k : Fin 16, k.val + 1 = s.sp.toNat ∧ t = s.drop.finish (.jump (s.stack[k.val] + 2#16)) false := by
  simp only [exec, execRet] at h
  split at h
  · next e => exact .inl ⟨congrArg BitVec.toNat e, (Host.Outcome.next.inj h).symm⟩
  · next e =>
    have h0 : s.sp.toNat ≠ 0 := fun e' => e (BitVec.eq_of_toNat_eq e')
    by_cases hd : s.sp.toNat ≤ 16
    · rw [State.top_of_depth s hd] at h
      refine .inr ⟨⟨s.sp.toNat - 1, by omega⟩, Nat.succ_pred_eq_of_ne_zero h0, ?_⟩
      rw [← Host.Outcome.next.inj h]
      congr 2
      apply BitVec.eq_of_toNat_eq
      simp
    · rw [State.top_of_deep s (by omega)] at h
      exact absurd h (by simp)

/-- `LD [I], Vx` (R162). -/
theorem exec_storeRegs_cases {x : Reg} (h : exec (.storeRegs x) s = .next t) :
    (s.i.toNat + x.toNat > 0xFFF ∧ t = s.latchFault .dataRange) ∨
    (s.i.toNat + x.toNat ≤ 0xFFF ∧ t = (s.writeMem (s.storedRegs s.i.toNat (x.toNat + 1))).finish .next false) := by
  unfold exec execStoreRegs at h
  rcases withTransfer_cases h with ⟨_, h1, rfl⟩ | ⟨h1, h2⟩
  · exact .inl ⟨by simp only [regCount] at h1; omega, rfl⟩
  · exact .inr ⟨by simp only [regCount] at h1; omega, (Host.Outcome.next.inj h2).symm⟩

/-- `LD Vx, [I]` (R163). -/
theorem exec_loadRegs_cases {x : Reg} (h : exec (.loadRegs x) s = .next t) :
    (s.i.toNat + x.toNat > 0xFFF ∧ t = s.latchFault .dataRange) ∨
    (s.i.toNat + x.toNat ≤ 0xFFF ∧ t = (s.loadedRegs s.i.toNat (x.toNat + 1)).finish .next false) := by
  unfold exec execLoadRegs at h
  rcases withTransfer_cases h with ⟨_, h1, rfl⟩ | ⟨h1, h2⟩
  · exact .inl ⟨by simp only [regCount] at h1; omega, rfl⟩
  · exact .inr ⟨by simp only [regCount] at h1; omega, (Host.Outcome.next.inj h2).symm⟩

/-- The state after a completed `DRW` (R171). -/
def drawnState (s : State) (x y : Reg) (n : Nibble) : State :=
  let d := Screen.draw s.fb ((s.readV x).toNat % 64) ((s.readV y).toNat % 32) (s.mem.readBytes s.i.toNat n.toNat)
  ((s.writeFB d.1).writeV vf (flagByte d.2)).finish .next true

/-- `DRW` (R171). -/
theorem exec_drw_cases {x y : Reg} {n : Nibble} (h : exec (.drw x y n) s = .next t) :
    (n.toNat > 0 ∧ s.i.toNat + n.toNat - 1 > 0xFFF ∧ t = s.latchFault .dataRange) ∨
    ((n.toNat = 0 ∨ s.i.toNat + n.toNat - 1 ≤ 0xFFF) ∧ t = drawnState s x y n) := by
  unfold exec execDrw at h
  rcases withTransfer_cases h with ⟨h0, h1, rfl⟩ | ⟨h1, h2⟩
  · exact .inl ⟨by omega, by omega, rfl⟩
  · exact .inr ⟨by omega, (Host.Outcome.next.inj h2).symm⟩

/-- `SKP` (R185). -/
theorem exec_skp_cases {x : Reg} (h : exec (.skp x) s = .next t) :
    ((s.readV x).toNat > 15 ∧ t = s.latchFault .keyIndex) ∨
    ((s.readV x).toNat ≤ 15 ∧ t = s.finish (skipIf (s.keyHeld (s.readV x).toNat)) false) := by
  unfold exec execSkp at h
  rcases withKeyIndex_cases h with h1 | ⟨h1, h2⟩
  · exact .inl h1
  · exact .inr ⟨h1, (Host.Outcome.next.inj h2).symm⟩

/-- `SKNP` (R186). -/
theorem exec_sknp_cases {x : Reg} (h : exec (.sknp x) s = .next t) :
    ((s.readV x).toNat > 15 ∧ t = s.latchFault .keyIndex) ∨
    ((s.readV x).toNat ≤ 15 ∧ t = s.finish (skipIf (!s.keyHeld (s.readV x).toNat)) false) := by
  unfold exec execSknp at h
  rcases withKeyIndex_cases h with h1 | ⟨h1, h2⟩
  · exact .inl h1
  · exact .inr ⟨h1, (Host.Outcome.next.inj h2).symm⟩

/-- `LD Vx, K` (R187). -/
theorem exec_ldKey_cases {x : Reg} (h : exec (.ldKey x) s = .next t) :
    (s.lowestKey = none ∧ t = s.finish .wait false) ∨
    ∃ k, s.lowestKey = some k ∧ t = (s.writeV x (BitVec.ofNat 8 k)).finish .next false := by
  simp only [exec, execLdKey] at h
  split at h
  · next hk => exact .inl ⟨hk, (Host.Outcome.next.inj h).symm⟩
  · next k hk => exact .inr ⟨k, hk, (Host.Outcome.next.inj h).symm⟩

end Sys2Proof.Machine
end

