-- ==== Sys2Proof/Laws/Frame.lean ====
section
/-! SUPPORT. The frames of the shared operations: what each leaves as it was when the instruction completes. -/

namespace Sys2Proof.Machine

/-- A state that differs in `pc` and `redraw` only, and in one part at most, keeps everything else. -/
theorem Frame.of_part (s t : State) (p : Part) (hv : t.v = s.v) (hk : t.keys = s.keys) (hf : t.fault = s.fault)
    (hl : t.loadDone = s.loadDone) (he : t.events = s.events) (hi : p ≠ .index → t.i = s.i)
    (hs : p ≠ .stack → t.sp = s.sp ∧ t.stack = s.stack) (hd : p ≠ .delayTimer → t.dt = s.dt)
    (ht : p ≠ .soundTimer → t.st = s.st) (hm : p ≠ .memory → t.mem = s.mem) (hb : p ≠ .screen → t.fb = s.fb) :
    Frame [] [p] s t where
  regs r _ := by rw [State.readV, State.readV]; simp only [hv]
  index h := hi fun e => h (by simp [e])
  stack h := hs fun e => h (by simp [e])
  delayTimer h := hd fun e => h (by simp [e])
  soundTimer h := ht fun e => h (by simp [e])
  memory h a := by rw [hm fun e => h (by simp [e])]
  screen h r c := by rw [hb fun e => h (by simp [e])]
  keys := hk
  fault := hf
  loadDone := hl
  events := he

/-- A state that differs in registers, `pc` and `redraw` only keeps everything else. -/
theorem Frame.of_regs (regs : List Reg) (s t : State) (v : Vector Byte 16)
    (ht : t = { s with v := v, pc := t.pc, redraw := t.redraw }) (hr : ∀ r, r ∉ regs → t.readV r = s.readV r) :
    Frame regs [] s t := by
  rw [ht] at hr ⊢
  exact ⟨hr, fun _ => rfl, fun _ => ⟨rfl, rfl⟩, fun _ => rfl, fun _ => rfl, fun _ _ => rfl, fun _ _ _ => rfl, rfl, rfl,
    rfl, rfl⟩

variable (s : State) (d : Directive) (b : Bool)

theorem Frame.finish : Frame [] [] s (s.finish d b) := Frame.of_regs [] s _ s.v rfl fun _ _ => rfl

theorem Frame.writeV (x : Reg) (a : Byte) : Frame [x] [] s ((s.writeV x a).finish d b) :=
  Frame.of_regs [x] s _ (s.v.set x.toNat a x.isLt) rfl fun r hr => by
    simp only [List.mem_singleton] at hr
    simp [State.readV_writeV, hr]

theorem Frame.writeResultThenFlag (x : Reg) (res : Byte × Bool) :
    Frame [x, vf] [] s ((s.writeResultThenFlag x res).finish d b) :=
  Frame.of_regs [x, vf] s _ (s.writeResultThenFlag x res).v rfl fun r hr => by
    simp only [List.mem_cons, List.not_mem_nil, or_false, not_or] at hr
    simp [State.readV_writeResultThenFlag, hr]

theorem Frame.loadedRegs (base n : Nat) (hn : n ≤ 16) :
    Frame ((List.range n).map (BitVec.ofNat 4)) [] s ((s.loadedRegs base n).finish d b) := by
  refine Frame.of_regs _ s _ (s.loadedRegs base n).v ?_ fun r hr => ?_
  · conv_lhs => rw [State.loadedRegs_eq]
    simp [State.finish]
  · have : ¬ r.toNat < n := fun h => hr (List.mem_map.2 ⟨r.toNat, List.mem_range.2 h, by simp⟩)
    rw [State.finish_readV, State.readV_loadedRegs _ _ _ _ hn, if_neg this]

end Sys2Proof.Machine
end

