-- ==== Sys2Proof/Laws/PerInstr.lean ====
section
/-! SUPPORT. The per-instruction family `EncodeSelectsRow`: the word the encoder builds for an instruction selects the
instruction's own row of the opcode map (30_encoding.md R84, R88), and for `nop` a well-formed word selects none (R87). -/

namespace Sys2Proof.Laws.EncodeSelectsRow

/-- The row of the opcode map with the instruction's mnemonic selects its word; an instruction without a row, when well
formed, has an unrecognized word. -/
def Statement (i : Instr) : Prop :=
  match opcodeRows.find? fun row => row.mnemonic == i.mnemonic with
  | some row => row.selects (encode i) = true
  | none => i.WellFormed = true → unrecognized (encode i) = true

/-- A nibble under a mask of 0. -/
theorem masked_out (a : Nibble) : a &&& 0x0#4 = 0x0#4 := BitVec.and_zero

theorem cls : Statement .cls := by
  show OpcodeRow.selects _ _ = true
  decide

theorem ret : Statement .ret := by
  show OpcodeRow.selects _ _ = true
  decide

theorem jp (nnn : Addr12) : Statement (.jp nnn) :=
  (selects_iff _ _).2 ⟨by simp [encode]; decide, masked_out _, masked_out _, masked_out _⟩

theorem call (nnn : Addr12) : Statement (.call nnn) :=
  (selects_iff _ _).2 ⟨by simp [encode]; decide, masked_out _, masked_out _, masked_out _⟩

theorem se (x : Reg) (kk : Byte) : Statement (.se x kk) :=
  (selects_iff _ _).2 ⟨by simp [encode]; decide, masked_out _, masked_out _, masked_out _⟩

theorem sne (x : Reg) (kk : Byte) : Statement (.sne x kk) :=
  (selects_iff _ _).2 ⟨by simp [encode]; decide, masked_out _, masked_out _, masked_out _⟩

theorem ldByte (x : Reg) (kk : Byte) : Statement (.ldByte x kk) :=
  (selects_iff _ _).2 ⟨by simp [encode]; decide, masked_out _, masked_out _, masked_out _⟩

theorem addByte (x : Reg) (kk : Byte) : Statement (.addByte x kk) :=
  (selects_iff _ _).2 ⟨by simp [encode]; decide, masked_out _, masked_out _, masked_out _⟩

theorem addReg (x y : Reg) : Statement (.addReg x y) :=
  (selects_iff _ _).2 ⟨by simp [encode]; decide, masked_out _, masked_out _, by simp [encode]; decide⟩

theorem subReg (x y : Reg) : Statement (.subReg x y) :=
  (selects_iff _ _).2 ⟨by simp [encode]; decide, masked_out _, masked_out _, by simp [encode]; decide⟩

theorem andReg (x y : Reg) : Statement (.andReg x y) :=
  (selects_iff _ _).2 ⟨by simp [encode]; decide, masked_out _, masked_out _, by simp [encode]; decide⟩

theorem xorReg (x y : Reg) : Statement (.xorReg x y) :=
  (selects_iff _ _).2 ⟨by simp [encode]; decide, masked_out _, masked_out _, by simp [encode]; decide⟩

theorem shr (x y : Reg) : Statement (.shr x y) :=
  (selects_iff _ _).2 ⟨by simp [encode]; decide, masked_out _, masked_out _, by simp [encode]; decide⟩

theorem ldReg (x y : Reg) : Statement (.ldReg x y) :=
  (selects_iff _ _).2 ⟨by simp [encode]; decide, masked_out _, masked_out _, by simp [encode]; decide⟩

theorem ldI (nnn : Addr12) : Statement (.ldI nnn) :=
  (selects_iff _ _).2 ⟨by simp [encode]; decide, masked_out _, masked_out _, masked_out _⟩

theorem addI (x : Reg) : Statement (.addI x) :=
  (selects_iff _ _).2 ⟨by simp [encode]; decide, masked_out _, by simp [encode, fieldY_eq_KK]; decide,
    by simp [encode, fieldN_eq_KK]; decide⟩

theorem storeRegs (x : Reg) : Statement (.storeRegs x) :=
  (selects_iff _ _).2 ⟨by simp [encode]; decide, masked_out _, by simp [encode, fieldY_eq_KK]; decide,
    by simp [encode, fieldN_eq_KK]; decide⟩

theorem loadRegs (x : Reg) : Statement (.loadRegs x) :=
  (selects_iff _ _).2 ⟨by simp [encode]; decide, masked_out _, by simp [encode, fieldY_eq_KK]; decide,
    by simp [encode, fieldN_eq_KK]; decide⟩

theorem drw (x y : Reg) (n : Nibble) : Statement (.drw x y n) :=
  (selects_iff _ _).2 ⟨by simp [encode]; decide, masked_out _, masked_out _, masked_out _⟩

theorem skp (x : Reg) : Statement (.skp x) :=
  (selects_iff _ _).2 ⟨by simp [encode]; decide, masked_out _, by simp [encode, fieldY_eq_KK]; decide,
    by simp [encode, fieldN_eq_KK]; decide⟩

theorem sknp (x : Reg) : Statement (.sknp x) :=
  (selects_iff _ _).2 ⟨by simp [encode]; decide, masked_out _, by simp [encode, fieldY_eq_KK]; decide,
    by simp [encode, fieldN_eq_KK]; decide⟩

theorem ldKey (x : Reg) : Statement (.ldKey x) :=
  (selects_iff _ _).2 ⟨by simp [encode]; decide, masked_out _, by simp [encode, fieldY_eq_KK]; decide,
    by simp [encode, fieldN_eq_KK]; decide⟩

theorem ldDtVx (x : Reg) : Statement (.ldDtVx x) :=
  (selects_iff _ _).2 ⟨by simp [encode]; decide, masked_out _, by simp [encode, fieldY_eq_KK]; decide,
    by simp [encode, fieldN_eq_KK]; decide⟩

theorem ldVxDt (x : Reg) : Statement (.ldVxDt x) :=
  (selects_iff _ _).2 ⟨by simp [encode]; decide, masked_out _, by simp [encode, fieldY_eq_KK]; decide,
    by simp [encode, fieldN_eq_KK]; decide⟩

theorem ldStVx (x : Reg) : Statement (.ldStVx x) :=
  (selects_iff _ _).2 ⟨by simp [encode]; decide, masked_out _, by simp [encode, fieldY_eq_KK]; decide,
    by simp [encode, fieldN_eq_KK]; decide⟩

theorem unnamed8xy1 (x y : Reg) : Statement (.unnamed8xy1 x y) :=
  (selects_iff _ _).2 ⟨by simp [encode]; decide, masked_out _, masked_out _, by simp [encode]; decide⟩

theorem unnamed8xy7 (x y : Reg) : Statement (.unnamed8xy7 x y) :=
  (selects_iff _ _).2 ⟨by simp [encode]; decide, masked_out _, masked_out _, by simp [encode]; decide⟩

theorem unnamed8xyE (x y : Reg) : Statement (.unnamed8xyE x y) :=
  (selects_iff _ _).2 ⟨by simp [encode]; decide, masked_out _, masked_out _, by simp [encode]; decide⟩

theorem nop (w : Word) : Statement (.nop w) := id

end Sys2Proof.Laws.EncodeSelectsRow
end

