-- ==== Sys2Proof/Laws/Step.lean ====
section
/-! SUPPORT. What one event and one step can do, said once (40_step_cycle.md R110, R111). -/

namespace Sys2Proof.Machine

variable {s t : State}

@[simp] theorem State.fetchInRange_iff (s : State) : s.fetchInRange = true ↔ s.pc.toNat ≤ 0x0FFE := by
  rw [State.fetchInRange, decide_eq_true_iff]

/-- A STEP that answers a next state was void, or faulted at the fetch, or executed the decoded word. -/
theorem cpuStep_cases (h : cpuStep s = .next t) :
    (s.fault ≠ 0#3 ∧ t = { s with redraw := false }) ∨
    (s.fault = 0#3 ∧ s.pc.toNat > 0x0FFE ∧ t = { s with loadDone := true }.latchFault .fetchRange) ∨
    (s.fault = 0#3 ∧ s.pc.toNat ≤ 0x0FFE ∧ exec (decode s.fetchWord) { s with loadDone := true } = .next t) := by
  unfold cpuStep at h
  split at h
  · next hf => exact .inl ⟨hf, (Host.Outcome.next.inj h).symm⟩
  · next hf =>
    have hf : s.fault = 0#3 := not_not.1 hf
    split at h
    · next hp => exact .inr (.inr ⟨hf, (State.fetchInRange_iff s).1 hp, h⟩)
    · next hp =>
      exact .inr (.inl ⟨hf, Nat.lt_of_not_le (mt (State.fetchInRange_iff s).2 hp), (Host.Outcome.next.inj h).symm⟩)

/-- A LOAD that answers a next state was the first, came before a STEP and fits (R233, R234). -/
theorem loadEvent_cases {bytes : List Byte} (h : loadEvent bytes s = .next t) :
    s.loadDone = false ∧ bytes.length ≤ 3584 ∧
      t = { s with mem := s.mem.writeBytes 0x200 bytes, loadDone := true } := by
  unfold loadEvent at h
  split at h
  · exact absurd h (by simp)
  · next hl =>
    split at h
    · next hb => exact ⟨by simpa using hl, hb, (Host.Outcome.next.inj h).symm⟩
    · exact absurd h (by simp)

/-- A step that answers a next state is a STEP, or the scheduled event taken off the schedule. -/
theorem step_cases (h : step s = .next t) :
    (s.events = [] ∧ cpuStep s = .next t) ∨
    ∃ e rest, s.events = e :: rest ∧ applyEvent e { s with events := rest } = .next t := by
  unfold step nextEvent at h
  split at h
  · next he => exact .inl ⟨he, h⟩
  · next e rest he => exact .inr ⟨e, rest, he, h⟩

/-- A step whose next event is a STEP is that STEP, taken off the schedule. -/
theorem step_of_nextIsStep {rest : List Event} (h : s.NextIsStep rest) : step s = cpuStep { s with events := rest } := by
  rcases h with h | ⟨h, rfl⟩
  · rw [step, nextEvent, h]
    rfl
  · rw [step, nextEvent, h]
    exact congrArg cpuStep (by rw [← h])

/-- A STEP, scheduled or not, of a machine whose `pc` is out of the fetch range. -/
theorem step_of_fetch_out {rest : List Event} (hn : s.NextIsStep rest) (hf : s.fault = 0#3) (hp : s.pc.toNat > 0x0FFE) :
    step s = raise .fetchRange { s with loadDone := true, events := rest } := by
  rw [step_of_nextIsStep hn, cpuStep, if_neg (not_not.2 hf), if_neg]
  rw [State.fetchInRange_iff]
  exact Nat.not_le_of_lt hp

/-- A STEP, scheduled or not, that answers a next state was void, or faulted at the fetch, or executed the word at `pc`. -/
theorem step_nextIsStep_cases {rest : List Event} (hn : s.NextIsStep rest) (h : step s = .next t) :
    (s.fault ≠ 0#3 ∧ t = { s with redraw := false, events := rest }) ∨
    (s.fault = 0#3 ∧ s.pc.toNat > 0x0FFE ∧
      t = { s with loadDone := true, events := rest }.latchFault .fetchRange) ∨
    (s.fault = 0#3 ∧ s.pc.toNat ≤ 0x0FFE ∧
      exec (decode s.fetchWord) { s with loadDone := true, events := rest } = .next t) :=
  cpuStep_cases (step_of_nextIsStep hn ▸ h)

/-- An invariant: holds at reset under every schedule and every step keeps it, so it holds of every reachable state. -/
theorem reachable_invariant {P : State → Prop} (h0 : ∀ es, P { State.reset with events := es })
    (hs : ∀ s t, P s → step s = .next t → P t) : ∀ {s : State}, Reachable s → P s := by
  intro s h
  induction h with
  | reset es => exact h0 es
  | step s t _ hst ih => exact hs s t ih hst

end Sys2Proof.Machine
end

