-- ==== Sys2Proof/Tests/Slice0.lean ====
section
/-! SUPPORT. The model's own tests: ill-formed terms that WellFormed refuses, words written out bit by bit from the
patterns of 30_encoding.md, one step of each instruction with the expected values of spec/95_test_vectors.md (named by its
section), the five events, and for every obligation with hypotheses a witness that meets them. -/

namespace Sys2Proof.Tests

open Sys2Proof.Machine

/-! ### Helpers -/

/-- A running machine with some registers set. -/
def withRegs (l : List (Reg × Byte)) : State :=
  l.foldl (fun s p => s.writeV p.1 p.2) { State.reset with loadDone := true }

/-- `s` with the bytes stored from address `a` on. -/
def withBytes (s : State) (a : Nat) (l : List Byte) : State := { s with mem := s.mem.writeBytes a l }

/-- The state after one step that runs the word `w`; none where the model stops. -/
def after (s : State) (w : Nat) : Option State :=
  match step (s.withFetchWord 16 w) with
  | .next t => some t
  | .fault _ => none
  | .refused _ => none

/-- The state after the next event. -/
def afterEvent (s : State) : Option State :=
  match step s with
  | .next t => some t
  | .fault _ => none
  | .refused _ => none

/-- The pixels that are on, as (row, column). -/
def onPixels (s : State) : List (Nat × Nat) :=
  (List.finRange 32).flatMap fun r => (List.finRange 64).filterMap fun c =>
    if s.fb.pixel r c then some (r.val, c.val) else none

/-! ### WellFormed: the one check (R87) -/

theorem smoke_nop_of_a_named_word_is_ill_formed : Instr.WellFormed (.nop 0x00E0#16) = false := by decide
theorem smoke_nop_of_a_family_word_is_ill_formed : Instr.WellFormed (.nop 0x1234#16) = false := by decide
theorem smoke_nop_of_a_refused_word_is_ill_formed : Instr.WellFormed (.nop 0x8121#16) = false := by decide
theorem smoke_nop_of_an_unrecognized_word_is_well_formed : Instr.WellFormed (.nop 0x5120#16) = true := by decide

/-! ### Decoding: every constructor, from words written out bit by bit (R81, R84, R88; S2, S12) -/

theorem test_decode_display :
    decode 0b0000000011100000#16 = .cls ∧ decode 0b1101000100100011#16 = .drw 0x1#4 0x2#4 0x3#4 := by decide

theorem test_decode_control :
    decode 0b0000000011101110#16 = .ret ∧ decode 0b0001001000110100#16 = .jp 0x234#12 ∧
    decode 0b0010001100001010#16 = .call 0x30A#12 ∧ decode 0b0011001100101010#16 = .se 0x3#4 0x2A#8 ∧
    decode 0b0100110000000001#16 = .sne 0xC#4 0x01#8 := by decide

theorem test_decode_immediate :
    decode 0b0110111110101011#16 = .ldByte 0xF#4 0xAB#8 ∧ decode 0b0111000100000011#16 = .addByte 0x1#4 0x03#8 := by
  decide

theorem test_decode_alu :
    decode 0b1000000100100000#16 = .ldReg 0x1#4 0x2#4 ∧ decode 0b1000000100100010#16 = .andReg 0x1#4 0x2#4 ∧
    decode 0b1000000100100011#16 = .xorReg 0x1#4 0x2#4 ∧ decode 0b1000000100100100#16 = .addReg 0x1#4 0x2#4 ∧
    decode 0b1000000100100101#16 = .subReg 0x1#4 0x2#4 ∧ decode 0b1000101010110110#16 = .shr 0xA#4 0xB#4 := by decide

theorem test_decode_refused :
    decode 0b1000000100100001#16 = .unnamed8xy1 0x1#4 0x2#4 ∧ decode 0b1000000100100111#16 = .unnamed8xy7 0x1#4 0x2#4 ∧
    decode 0b1000000100101110#16 = .unnamed8xyE 0x1#4 0x2#4 := by decide

theorem test_decode_index :
    decode 0b1010001100000101#16 = .ldI 0x305#12 ∧ decode 0b1111001100011110#16 = .addI 0x3#4 ∧
    decode 0b1111000101010101#16 = .storeRegs 0x1#4 ∧ decode 0b1111001001100101#16 = .loadRegs 0x2#4 := by decide

theorem test_decode_keys_timers :
    decode 0b1110010010011110#16 = .skp 0x4#4 ∧ decode 0b1110010010100001#16 = .sknp 0x4#4 ∧
    decode 0b1111010100001010#16 = .ldKey 0x5#4 ∧ decode 0b1111001000010101#16 = .ldDtVx 0x2#4 ∧
    decode 0b1111001100000111#16 = .ldVxDt 0x3#4 ∧ decode 0b1111001000011000#16 = .ldStVx 0x2#4 := by decide

/-- The NOP words of vectors 2.1. -/
theorem test_decode_nop :
    ([0x0000#16, 0x00E1#16, 0x01E0#16, 0x00EF#16, 0x0123#16, 0x5120#16, 0x9120#16, 0xB300#16, 0xC1FF#16, 0x8128#16,
      0x812F#16, 0xE19F#16, 0xF129#16, 0xF133#16, 0xF1FF#16].all fun w => decode w == .nop w) = true := by decide

/-- The word of S12: every field of 0xABCD. -/
theorem test_fields :
    fieldNNN 0xABCD#16 = 0xBCD#12 ∧ fieldN 0xABCD#16 = 0xD#4 ∧ fieldX 0xABCD#16 = 0xB#4 ∧ fieldY 0xABCD#16 = 0xC#4 ∧
    fieldKK 0xABCD#16 = 0xCD#8 := by decide

/-- The byte 0x60 at the lower address and 0x05 at the higher are the word 0x6005 (95_test_vectors.md section 3). -/
theorem test_decode_bytes_big_endian :
    (decodeBytes [0x60#8, 0x05#8, 0x70#8]).toOption = some (.ldByte 0x0#4 0x05#8, [0x70#8]) := by decide

theorem test_decode_one_byte_is_truncated : (decodeBytes [0x60#8]).toOption = none := by decide

theorem test_table_word : decodeTableWord 16 0xD123 = some (.drw 0x1#4 0x2#4 0x3#4) := by decide

/-! ### Control flow (vectors 2.2) -/

theorem test_jp_odd : (after State.reset 0x1235).map (fun t => (t.pc, t.fault)) = some (0x0235#16, 0#3) := by decide

theorem test_call_last_entry :
    (after { State.reset with pc := 0x0204#16, sp := 15#8 } 0x2300).map
      (fun t => (t.stack[15], t.sp, t.pc, t.fault)) = some (0x0204#16, 16#8, 0x0300#16, 0#3) := by decide

theorem test_call_overflow :
    (after { State.reset with pc := 0x0204#16, sp := 16#8 } 0x2300).map
      (fun t => (t.sp, t.pc, t.fault)) = some (16#8, 0x0204#16, 1#3) := by decide

theorem test_ret :
    (after { State.reset with pc := 0x0300#16, sp := 1#8, stack := State.reset.stack.set 0 0x0204#16 } 0x00EE).map
      (fun t => (t.sp, t.pc, t.stack[0])) = some (0#8, 0x0206#16, 0x0204#16) := by decide

theorem test_ret_underflow :
    (after { State.reset with pc := 0x0300#16 } 0x00EE).map (fun t => (t.sp, t.pc, t.fault)) =
      some (0#8, 0x0300#16, 2#3) := by decide

theorem test_se_skips : (after (withRegs [(3, 0x2A#8)]) 0x332A).map (·.pc) = some 0x0204#16 := by decide
theorem test_se_falls_through : (after (withRegs [(3, 0x2B#8)]) 0x332A).map (·.pc) = some 0x0202#16 := by decide
theorem test_sne_falls_through : (after (withRegs [(3, 0x2A#8)]) 0x432A).map (·.pc) = some 0x0202#16 := by decide
theorem test_sne_skips : (after (withRegs [(3, 0x2B#8)]) 0x432A).map (·.pc) = some 0x0204#16 := by decide

/-- `pc = 0x0FFE`, a taken skip: `pc` is 0x1002, and the next fetch faults. -/
theorem test_skip_to_the_largest_pc :
    ((after { State.reset with pc := 0x0FFE#16 } 0x3000).map (·.pc) = some 0x1002#16) ∧
    ((after { State.reset with pc := 0x0FFE#16 } 0x3000).bind afterEvent).map (fun t => (t.pc, t.fault)) =
      some (0x1002#16, 3#3) := by decide

theorem test_nop :
    (after (withRegs [(1, 7#8), (2, 7#8)]) 0x5120).map (fun t => (t.pc, t.redraw)) = some (0x0202#16, false) := by decide

/-! ### Register and arithmetic (vectors 2.3) -/

theorem test_ld_byte_vf : (after State.reset 0x6FAB).map (fun t => (t.readV vf, t.pc)) = some (0xAB#8, 0x0202#16) := by
  decide

theorem test_add_byte_wraps :
    (after (withRegs [(0, 0xFE#8), (vf, 0x55#8)]) 0x70FF).map (fun t => (t.readV 0, t.readV vf)) =
      some (0xFD#8, 0x55#8) := by decide

theorem test_ld_reg :
    (after (withRegs [(2, 0x7E#8)]) 0x8120).map (fun t => (t.readV 1, t.readV 2)) = some (0x7E#8, 0x7E#8) := by decide

theorem test_and :
    (after (withRegs [(1, 0xF0#8), (2, 0x3C#8), (vf, 1#8)]) 0x8122).map (fun t => (t.readV 1, t.readV vf)) =
      some (0x30#8, 1#8) := by decide

theorem test_xor :
    (after (withRegs [(1, 0xF0#8), (2, 0x3C#8), (vf, 1#8)]) 0x8123).map (fun t => (t.readV 1, t.readV vf)) =
      some (0xCC#8, 1#8) := by decide

/-- A sum of 255 is no carry. -/
theorem test_add_255 :
    (after (withRegs [(1, 0x7F#8), (2, 0x80#8), (vf, 9#8)]) 0x8124).map (fun t => (t.readV 1, t.readV vf)) =
      some (0xFF#8, 0#8) := by decide

/-- `ADD VF, V1`: VF holds the carry, the sum is lost. -/
theorem test_add_to_vf :
    (after (withRegs [(vf, 0xF0#8), (1, 0x20#8)]) 0x8F14).map (fun t => (t.readV vf, t.readV 1)) =
      some (1#8, 0x20#8) := by decide

theorem test_sub_saturates :
    (after (withRegs [(1, 0x03#8), (2, 0x0A#8), (vf, 9#8)]) 0x8125).map (fun t => (t.readV 1, t.readV vf)) =
      some (0#8, 0#8) := by decide

theorem test_sub_greater :
    (after (withRegs [(1, 0x80#8), (2, 0x7F#8)]) 0x8125).map (fun t => (t.readV 1, t.readV vf)) =
      some (1#8, 1#8) := by decide

theorem test_shr_ignores_y :
    (after (withRegs [(0xA, 0x05#8), (0xB, 0x77#8)]) 0x8AB6).map (fun t => (t.readV 0xA, t.readV vf, t.readV 0xB)) =
      some (0x02#8, 1#8, 0x77#8) := by decide

theorem test_shr_vf : (after (withRegs [(vf, 0x02#8)]) 0x8F06).map (·.readV vf) = some 0#8 := by decide

/-! ### Index and memory (vectors 2.4) -/

theorem test_ld_i : (after { State.reset with i := 0xFFFF#16 } 0xA300).map (·.i) = some 0x0300#16 := by decide

theorem test_add_i_past_memory :
    (after { withRegs [(3, 1#8)] with i := 0x0FFF#16 } 0xF31E).map (fun t => (t.i, t.readV vf, t.fault)) =
      some (0x1000#16, 0#8, 0#3) := by decide

theorem test_add_i_wraps : (after { withRegs [(3, 1#8)] with i := 0xFFFF#16 } 0xF31E).map (·.i) = some 0x0000#16 := by
  decide

theorem test_store_regs :
    (after { withRegs [(0, 0x11#8), (1, 0x22#8), (2, 0x33#8)] with i := 0x0300#16 } 0xF155).map
      (fun t => (t.mem.readBytes 0x2FF 4, t.i, t.mem.wf)) =
      some ([0x00#8, 0x11#8, 0x22#8, 0x00#8], 0x0300#16, true) := by decide

theorem test_store_regs_out_of_range :
    (after { withRegs [(0, 0x11#8)] with i := 0x0FFF#16 } 0xF155).map
      (fun t => (t.mem.read 0xFFF, t.pc, t.fault)) = some (0x00#8, 0x0200#16, 4#3) := by decide

theorem test_load_regs :
    (after (withBytes { withRegs [(2, 0x99#8)] with i := 0x0300#16 } 0x300 [0xAA#8, 0xBB#8, 0xCC#8]) 0xF165).map
      (fun t => (t.readV 0, t.readV 1, t.readV 2, t.i)) = some (0xAA#8, 0xBB#8, 0x99#8, 0x0300#16) := by decide

/-- The sum 0x10000 is not wrapped to address 0. -/
theorem test_load_regs_out_of_range :
    (after { withRegs [(1, 0x99#8)] with i := 0xFFFF#16 } 0xF165).map (fun t => (t.readV 1, t.fault)) =
      some (0x99#8, 4#3) := by decide

/-! ### Display (vectors 2.5) -/

theorem test_cls :
    (after { withRegs [(vf, 7#8)] with fb := Screen.toggle State.reset.fb 3 5 true } 0x00E0).map
      (fun t => (t.fb.pixel 3 5, t.redraw, t.readV vf)) = some (false, true, 7#8) := by decide

/-- P4: two rows, wrapped in both directions. -/
theorem test_drw_wraps :
    (after (withBytes { withRegs [(0, 63#8), (1, 31#8)] with i := 0x0300#16 } 0x300 [0xC0#8, 0x81#8]) 0xD012).map
      (fun t => (onPixels t, t.readV vf, t.redraw)) =
      some ([(0, 6), (0, 63), (31, 0), (31, 63)], 0#8, true) := by decide +kernel

/-- A 1 bit over a pixel that is on turns it off and sets VF. -/
theorem test_drw_collides :
    (after (withBytes { withRegs [] with i := 0x0300#16, fb := Screen.toggle State.reset.fb 0 0 true } 0x300 [0xC0#8])
      0xD121).map (fun t => (onPixels t, t.readV vf)) = some ([(0, 1)], 1#8) := by decide +kernel

/-! ### Keys and timers (vectors 2.6) -/

theorem test_skp_held :
    (after { withRegs [(4, 0x0F#8)] with keys := 0x8000#16 } 0xE49E).map (·.pc) = some 0x0204#16 := by decide

theorem test_skp_above_fifteen :
    (after { withRegs [(4, 0x10#8)] with keys := 0xFFFF#16 } 0xE49E).map (fun t => (t.pc, t.fault)) =
      some (0x0200#16, 5#3) := by decide

theorem test_sknp_not_held :
    (after { withRegs [(4, 0x0A#8)] with keys := 0xFBFF#16 } 0xE4A1).map (·.pc) = some 0x0204#16 := by decide

theorem test_sknp_held :
    (after { withRegs [(4, 0x0A#8)] with keys := 0x0400#16 } 0xE4A1).map (·.pc) = some 0x0202#16 := by decide

theorem test_ld_key_lowest :
    (after { withRegs [] with keys := 0x0088#16 } 0xF50A).map (fun t => (t.readV 5, t.pc)) =
      some (0x03#8, 0x0202#16) := by decide

theorem test_ld_key_waits :
    (after (withRegs [(5, 0x77#8)]) 0xF50A).map (fun t => (t.readV 5, t.pc, t.redraw)) =
      some (0x77#8, 0x0200#16, false) := by decide

theorem test_ld_dt_vx :
    (after (withRegs [(2, 0x3C#8)]) 0xF215).map (fun t => (t.dt, t.st)) = some (0x3C#8, 0x00#8) := by decide

theorem test_ld_vx_dt :
    (after { withRegs [] with dt := 0x10#8 } 0xF307).map (fun t => (t.readV 3, t.dt)) = some (0x10#8, 0x10#8) := by decide

theorem test_ld_st_vx :
    (after (withRegs [(2, 0x05#8)]) 0xF218).map (fun t => (t.st, t.dt)) = some (0x05#8, 0x00#8) := by decide

/-! ### The refused words (vectors 2.1) -/

theorem test_unnamed_words_are_refused :
    (after State.reset 0x8121, after State.reset 0x8127, after State.reset 0x812E) = (none, none, none) := by decide

/-! ### Events (vectors 2.6, S9) -/

theorem test_tick :
    (afterEvent { withRegs [] with dt := 3#8, st := 1#8, events := [.tick] }).map (fun t => (t.dt, t.st, t.pc)) =
      some (2#8, 0#8, 0x0200#16) := by decide

theorem test_tick_floor_in_the_fault_state :
    (afterEvent { withRegs [] with dt := 4#8, fault := 1#3, events := [.tick] }).map (fun t => (t.dt, t.st, t.fault)) =
      some (3#8, 0#8, 1#3) := by decide

theorem test_set_keys :
    (afterEvent { withRegs [] with events := [.setKeys 0x8001#16] }).map
      (fun t => (t.keyHeld 0, t.keyHeld 1, t.keyHeld 15)) = some (true, false, true) := by decide

theorem test_step_in_the_fault_state :
    (afterEvent { withRegs [] with pc := 0x0204#16, fault := 1#3 }).map (fun t => (t.pc, t.fault, t.redraw)) =
      some (0x0204#16, 1#3, false) := by decide

/-- The bytes of S11. -/
theorem test_load :
    (afterEvent { State.reset with events := [.load [0x60#8, 0x05#8, 0x70#8, 0x03#8, 0xA3#8, 0x00#8]] }).map
      (fun t => (t.mem.readBytes 0x1FF 7, t.pc, t.mem.wf)) =
      some ([0x00#8, 0x60#8, 0x05#8, 0x70#8, 0x03#8, 0xA3#8, 0x00#8], 0x0200#16, true) := by decide

theorem test_reset_event :
    (afterEvent { withRegs [(3, 9#8)] with fault := 4#3, pc := 0x0300#16, events := [.reset] }).map
      (fun t => (t.readV 3, t.fault, t.pc)) = some (0#8, 0#3, 0x0200#16) := by decide

/-- The run ends at the address after `LD V0, 0x05` (S11), by the fault of P8, by its events running out, and where the
model has no move (R120). -/
theorem test_end_of_run :
    observeRun 0x0202#16 1 (State.reset.withFetchWord 16 0x6005) =
      .atAddress { State.reset.withFetchWord 16 0x6005 with pc := 0x0202#16, v := State.reset.v.set 0 0x05#8 } ∧
    observeRun 0x0200#16 1 { withRegs [] with pc := 0x1000#16 } =
      .faulted { withRegs [] with pc := 0x1000#16, fault := 3#3 } ∧
    observeRun 0x0300#16 0 State.reset = .eventsOver State.reset ∧
    observeRun 0x0300#16 1 (State.reset.withFetchWord 16 0x8121) = .noMove (State.reset.withFetchWord 16 0x8121) := by
  decide +kernel

/-- Writing the value an unlisted byte reads as takes the entry out again. -/
theorem test_memory_is_canonical :
    Memory.write (Memory.write (Memory.write [] 0x300 1#8) 0x200 2#8) 0x300 0#8 = [(0x200, 2#8)] ∧
    Memory.write [] 4096 1#8 = [] ∧ Memory.wf State.reset.mem = true := by decide

/-! ### Witnesses: for every obligation with hypotheses, inputs that meet all of them, at a boundary value -/

theorem witness_EveryWordSelectsAtMostOneRow :
    ∃ (w : Word) (p q : OpcodeRow), p ∈ opcodeRows ∧ q ∈ opcodeRows ∧ p.selects w = true ∧ q.selects w = true :=
  ⟨0x8FFE#16, ⟨"UNNAMED_8XYE", 0x800E#16, 0xF00F#16⟩, ⟨"UNNAMED_8XYE", 0x800E#16, 0xF00F#16⟩, by decide⟩

theorem witness_DecoderFollowsTheOpcodeMap :
    (∃ (w : Word) (p : OpcodeRow), p ∈ opcodeRows ∧ p.selects w = true) ∧ ∃ w : Word, unrecognized w = true :=
  ⟨⟨0xFF65#16, ⟨"LD_Vx___I", 0xF065#16, 0xF0FF#16⟩, by decide⟩, 0xFFFF#16, by decide⟩

theorem witness_DecodeOfEncodeIsTheInstruction :
    Instr.WellFormed (.nop 0x0000#16) = true ∧ Instr.WellFormed (.drw 0xF#4 0xF#4 0xF#4) = true := by decide

/-- Both clauses, at the last address that a fetch may start at. -/
theorem witness_StepRunsTheDecodedInstruction :
    (∃ s : State, s.fault = 0#3 ∧ s.pc.toNat ≤ 0x0FFE ∧ s.events = []) ∧
    ∃ (s : State) (rest : List Event), s.fault = 0#3 ∧ s.pc.toNat ≤ 0x0FFE ∧ s.events = .step :: rest :=
  ⟨⟨{ withRegs [] with pc := 0x0FFE#16 }, by decide⟩,
    { withRegs [] with pc := 0x0FFE#16, events := [.step, .tick] }, [.tick], by decide⟩

/-- No event left, and a scheduled STEP, at the first address outside the fetch range. -/
theorem witness_FetchOutsideMemoryFaults :
    (∃ s : State, s.NextIsStep [] ∧ s.fault = 0#3 ∧ s.pc.toNat > 0x0FFE ∧ s.events = []) ∧
    ∃ s : State, s.NextIsStep [.tick] ∧ s.fault = 0#3 ∧ s.pc.toNat > 0x0FFE :=
  ⟨⟨{ withRegs [] with pc := 0x0FFF#16 }, .inr ⟨rfl, rfl⟩, by decide⟩,
    { withRegs [] with pc := 0x0FFF#16, events := [.step, .tick] }, .inl rfl, by decide⟩

theorem witness_StepInTheFaultStateIsVoid :
    (∃ s : State, s.NextIsStep [] ∧ s.fault ≠ 0#3 ∧ s.events = []) ∧ ∃ s : State, s.NextIsStep [.tick] ∧ s.fault ≠ 0#3 :=
  ⟨⟨{ withRegs [] with fault := 1#3 }, .inr ⟨rfl, rfl⟩, by decide⟩,
    { withRegs [] with fault := 1#3, events := [.step, .tick] }, .inl rfl, by decide⟩

theorem witness_ScheduledEventIsAppliedAlone : ∃ (s : State) (e : Event) (rest : List Event), s.events = e :: rest :=
  ⟨{ withRegs [] with events := [.setKeys 0x8000#16] }, _, _, rfl⟩

theorem witness_TickDecrementsEachTimer : ∃ (s : State) (rest : List Event), s.events = .tick :: rest ∧ s.dt = 0#8 :=
  ⟨{ withRegs [] with events := [.tick, .step] }, _, rfl, by decide⟩

theorem witness_SetKeysReplacesTheSnapshot :
    ∃ (s : State) (k : BitVec 16) (rest : List Event), s.events = .setKeys k :: rest :=
  ⟨{ withRegs [] with events := [.setKeys 0xFFFF#16] }, _, _, rfl⟩

theorem witness_ResetSetsEveryPieceOfState :
    ∃ (s : State) (rest : List Event), s.events = .reset :: rest ∧ s.fault = 5#3 :=
  ⟨{ withRegs [] with fault := 5#3, events := [.reset] }, _, rfl, rfl⟩

/-- The longest program, and the empty one. -/
theorem witness_LoadCopiesTheProgram :
    (∃ (s : State) (bytes : List Byte) (rest : List Event), s.events = .load bytes :: rest ∧ s.loadDone = false ∧
      bytes.length ≤ 3584 ∧ 3584 ≤ bytes.length) ∧
    ∃ (s : State) (rest : List Event), s.events = .load [] :: rest ∧ s.loadDone = false :=
  ⟨⟨{ State.reset with events := [.load (List.replicate 3584 1#8)] }, _, _, rfl, rfl,
      Nat.le_of_eq List.length_replicate, Nat.le_of_eq List.length_replicate.symm⟩,
    { State.reset with events := [.load []] }, _, rfl, rfl⟩

theorem witness_LoadOutOfPlaceIsRefused :
    (∃ (s : State) (bytes : List Byte) (rest : List Event), s.events = .load bytes :: rest ∧ s.loadDone = true) ∧
    ∃ (s : State) (bytes : List Byte) (rest : List Event), s.events = .load bytes :: rest ∧ s.loadDone = false ∧
      bytes.length > 3584 :=
  ⟨⟨{ withRegs [] with events := [.load []] }, _, _, rfl, rfl⟩,
    { State.reset with events := [.load (List.replicate 3585 1#8)] }, _, _, rfl, rfl,
    Nat.le_of_eq List.length_replicate.symm⟩

theorem witness_CallPushesItsOwnAddress : ∃ s : State, s.sp.toNat < 16 ∧ s.sp.toNat = 15 :=
  ⟨{ withRegs [] with sp := 15#8 }, by decide⟩

theorem witness_RetJumpsPastTheCall :
    (∃ s : State, 0 < s.sp.toNat ∧ s.sp.toNat ≤ 16 ∧ s.sp = 1#8) ∧
    ∃ s : State, 0 < s.sp.toNat ∧ s.sp.toNat ≤ 16 ∧ s.sp = 16#8 :=
  ⟨⟨{ withRegs [] with sp := 1#8 }, by decide⟩, { withRegs [] with sp := 16#8 }, by decide⟩

theorem witness_CallAndRetFaultAtTheDepthLimits : (∃ s : State, s.sp.toNat = 16) ∧ ∃ s : State, s.sp.toNat = 0 :=
  ⟨⟨{ withRegs [] with sp := 16#8 }, by decide⟩, withRegs [], by decide⟩

theorem witness_CallThenRetReturnsAfterTheCall :
    ∃ (a : Addr12) (s t u : State), s.sp.toNat < 16 ∧ exec (.call a) s = .next t ∧ exec .ret t = .next u :=
  ⟨0x300#12, { withRegs [] with sp := 15#8 }, _, _, by decide, rfl, rfl⟩

/-- The condition holds and fails. -/
theorem witness_SeAndSneSkipOnTheirCondition : ∃ s : State, s.readV 3 = 0x2A#8 ∧ s.readV 4 ≠ 0x2A#8 :=
  ⟨withRegs [(3, 0x2A#8)], by decide⟩

theorem witness_AndXorCombineBitwise : ∃ j : Nat, j < 8 ∧ j = 7 := ⟨7, by decide⟩

/-- The clause on the destination, and both values of the carry: 255 and 256. -/
theorem witness_AddRegSetsCarry :
    ∃ (x y : Reg) (s s' : State), x ≠ vf ∧ (s.readV x).toNat + (s.readV y).toNat = 255 ∧
      (s'.readV x).toNat + (s'.readV y).toNat = 256 :=
  ⟨0x1#4, 0x2#4, withRegs [(1, 0x7F#8), (2, 0x80#8)], withRegs [(1, 0x80#8), (2, 0x80#8)], by decide⟩

/-- The clause on the destination, and the boundary of the comparison. -/
theorem witness_SubRegSaturatesAtZero :
    ∃ (x y : Reg) (s s' : State), x ≠ vf ∧ s.readV x = s.readV y ∧ (s'.readV x).toNat = (s'.readV y).toNat + 1 :=
  ⟨0x1#4, 0x2#4, withRegs [(1, 5#8), (2, 5#8)], withRegs [(1, 6#8), (2, 5#8)], by decide⟩

theorem witness_ShrShiftsOutIntoVF : ∃ (x : Reg) (s : State), x ≠ vf ∧ s.readV x = 0xFF#8 :=
  ⟨0xE#4, withRegs [(0xE, 0xFF#8)], by decide⟩

/-- The last transfer that fits, with an address inside it and one outside. -/
theorem witness_StoreRegsStoresFromI :
    ∃ (x r : Reg) (s : State) (a : Nat), s.i.toNat + x.toNat ≤ 0xFFF ∧ r.toNat ≤ x.toNat ∧
      ∀ k, k ≤ x.toNat → a ≠ effAddr s.i k :=
  ⟨0xF#4, 0xF#4, { withRegs [] with i := 0x0FF0#16 }, 0xFEF, by decide, by decide, fun k _ => by
    have : effAddr 0x0FF0#16 k = 4080 + k := rfl
    show 0xFEF ≠ effAddr 0x0FF0#16 k
    omega⟩

theorem witness_LoadRegsLoadsFromI :
    ∃ (x r r' : Reg) (s : State), s.i.toNat + x.toNat ≤ 0xFFF ∧ r.toNat ≤ x.toNat ∧ x.toNat < r'.toNat :=
  ⟨0xE#4, 0xE#4, 0xF#4, { withRegs [] with i := 0x0FF1#16 }, by decide⟩

theorem witness_StoreThenLoadRestoresRegisters :
    ∃ (x r : Reg) (s t t' u : State), exec (.storeRegs x) s = .next t ∧ t.fault = s.fault ∧ s.fault = 0#3 ∧
      t'.mem = t.mem ∧ t'.i = t.i ∧ exec (.loadRegs x) t' = .next u ∧ r.toNat ≤ x.toNat ∧ t'.readV r ≠ s.readV r :=
  ⟨0x1#4, 0x1#4, { withRegs [(1, 0xBB#8)] with i := 0x0FFE#16 }, _,
    { withRegs [(1, 0x11#8)] with i := 0x0FFE#16, mem := [(0xFFF, 0xBB#8)] }, _, rfl, rfl, rfl, by decide, rfl, rfl,
    by decide, by decide⟩

theorem witness_TransfersPastMemoryFault :
    (∃ (x : Reg) (s : State), s.i.toNat + x.toNat > 0xFFF) ∧
    ∃ (n : Nibble) (s : State), n.toNat > 0 ∧ s.i.toNat + n.toNat - 1 > 0xFFF :=
  ⟨⟨0xF#4, { withRegs [] with i := 0x0FF1#16 }, by decide⟩, 0xF#4, { withRegs [] with i := 0x0FF2#16 }, by decide⟩

theorem witness_MemoryReadsTheMostRecentWrite :
    ∃ writes : List (Nat × Byte), (∀ w ∈ writes, w.1 < 4096) ∧ writes.length = 3 :=
  ⟨[(4095, 1#8), (4095, 0#8), (0, 7#8)], by decide⟩

theorem witness_CanonicalMemoryIsItsBytes :
    ∃ m m' : Memory, m.wf = true ∧ m'.wf = true ∧ ∀ a, a < 4096 → m.read a = m'.read a :=
  ⟨[(0, 1#8), (4095, 2#8)], [(0, 1#8), (4095, 2#8)], by decide, by decide, fun _ _ => rfl⟩

/-- P5 with the whole word stored: V0, V1 to the two bytes fetched next. -/
theorem witness_StoreIsSeenByTheNextFetch :
    ∃ (x k k' : Reg) (s t : State), s.i.toNat + x.toNat ≤ 0xFFF ∧ exec (.storeRegs x) s = .next t ∧
      k'.toNat = k.toNat + 1 ∧ k'.toNat ≤ x.toNat ∧ t.pc.toNat = effAddr s.i k.toNat :=
  ⟨0x1#4, 0x0#4, 0x1#4, { withRegs [(0, 0x12#8), (1, 0x06#8)] with i := 0x0202#16 }, _, by decide, rfl, by decide,
    by decide, by decide⟩

/-- The tallest sprite, at the corner: a pixel it covers, a pixel it does not, and a collision. -/
theorem witness_DrawXorsTheSpriteWithWrap :
    (∃ (bytes : List Byte) (row col : Nat) (r : Fin 32) (c : Fin 64), bytes.length ≤ 15 ∧ row < bytes.length ∧
      col < 8 ∧ r.val = (31 + row) % 32 ∧ c.val = (63 + col) % 64 ∧ row = 14 ∧ col = 7) ∧
    (∃ (bytes : List Byte) (r : Fin 32) (c : Fin 64), bytes.length ≤ 15 ∧
      ∀ row col, row < bytes.length → col < 8 → ¬(r.val = (31 + row) % 32 ∧ c.val = (63 + col) % 64)) ∧
    ∃ fb : Screen, (fb.draw 63 31 [0x80#8]).2 = true :=
  ⟨⟨List.replicate 15 0xFF#8, 14, 7, 13, 6, by decide⟩,
    ⟨List.replicate 15 0xFF#8, 14, 63, by decide, fun row col h _ hh => by
      have h1 : row < 15 := by simpa using h
      have h2 : 14 = (31 + row) % 32 := hh.1
      omega⟩,
    Screen.toggle State.reset.fb 31 63 true, by decide +kernel⟩

/-- A sprite of no byte with `I` outside memory, and the tallest one that fits. -/
theorem witness_DrwDrawsTheSpriteAtI :
    (∃ (n : Nibble) (s : State), n.toNat = 0 ∧ s.i = 0xFFFF#16) ∧
    ∃ (n : Nibble) (s : State), n.toNat = 15 ∧ s.i.toNat + n.toNat - 1 ≤ 0xFFF ∧ s.i = 0x0FF1#16 :=
  ⟨⟨0x0#4, { withRegs [] with i := 0xFFFF#16 }, by decide⟩, 0xF#4, { withRegs [] with i := 0x0FF1#16 }, by decide⟩

theorem witness_DrawTwiceRestoresTheScreen :
    (∃ bytes : List Byte, bytes.length ≤ 15 ∧ bytes.length = 15 ∧ ∃ b ∈ bytes, b ≠ 0x00#8) ∧
    ∃ (r : Fin 32) (c : Fin 64), State.reset.fb.pixel r c = false ∧
      (State.reset.fb.draw 63 31 [0x01#8]).1.pixel r c = true :=
  ⟨⟨List.replicate 15 0x01#8, by decide, by decide, 0x01#8, by decide, by decide⟩, 31, 6, by decide +kernel⟩

theorem witness_SkpAndSknpSkipOnTheKey :
    ∃ (x : Reg) (s : State), (s.readV x).toNat ≤ 15 ∧ s.keyHeld (s.readV x).toNat = true :=
  ⟨0x4#4, { withRegs [(4, 0x0F#8)] with keys := 0x8000#16 }, by decide⟩

theorem witness_KeyNumberAboveFifteenFaults : ∃ (x : Reg) (s : State), (s.readV x).toNat > 15 ∧ s.readV x = 0x10#8 :=
  ⟨0x4#4, withRegs [(4, 0x10#8)], by decide⟩

theorem witness_LdKeyTakesTheLowestHeldKey :
    ∃ (s : State) (k : Nat), k < 16 ∧ s.keyHeld k = true ∧ ∀ j, j < k → s.keyHeld j = false :=
  ⟨{ withRegs [] with keys := 0x8000#16 }, 15, by decide⟩

theorem witness_LdKeyWaitsForAKey : ∃ s : State, ∀ k, k < 16 → s.keyHeld k = false :=
  ⟨withRegs [], by decide⟩

/-- One completion and one fault, and a store with an address outside the stored bytes. -/
theorem witness_InstructionsWriteOnlyTheirOwn :
    (∃ (i : Instr) (s t : State), exec i s = .next t ∧ t.fault = s.fault) ∧
    (∃ (i : Instr) (s t : State), exec i s = .next t ∧ FaultTaken .keyIndex s t) ∧
    ∃ (x : Reg) (s t : State) (a : Nat), exec (.storeRegs x) s = .next t ∧ ∀ k, k ≤ x.toNat → a ≠ effAddr s.i k :=
  ⟨⟨.loadRegs 0xF#4, withRegs [], _, rfl, by decide⟩, ⟨.skp 0x4#4, withRegs [(4, 0x10#8)], _, rfl, rfl⟩,
    0x1#4, { withRegs [(0, 0x11#8)] with i := 0x0300#16 }, _, 0x302, rfl, by decide⟩

/-- A flag written, a destination other than VF, a register load short of VF, and an instruction that writes no register. -/
theorem witness_VFIsWrittenOnlyAsFlagOrDestination :
    (∃ (s t : State), exec (.addReg 0xF#4 0x1#4) s = .next t) ∧ (∃ (s t : State), exec (.drw 0x0#4 0x0#4 0x1#4) s = .next t) ∧
    (∃ (x : Reg) (s t : State), exec (.loadRegs x) s = .next t ∧ x ≠ vf) ∧ ∃ (s t : State), exec .cls s = .next t :=
  ⟨⟨withRegs [], _, rfl⟩, ⟨{ withRegs [] with i := 0x1000#16 }, _, rfl⟩, ⟨0xE#4, withRegs [], _, rfl, by decide⟩,
    withRegs [], _, rfl⟩

/-- A jump, a return from the deepest level, a taken skip and a wait. -/
theorem witness_PcMovesByTheDirective :
    (∃ (s t : State), s.fault = 0#3 ∧ exec (.jp 0xFFF#12) s = .next t ∧ t.fault = 0#3) ∧
    (∃ (s t : State), s.fault = 0#3 ∧ exec .ret s = .next t ∧ t.fault = 0#3 ∧ s.sp = 16#8) ∧
    (∃ (s t : State), s.fault = 0#3 ∧ exec (.se 0x0#4 0x00#8) s = .next t ∧ t.fault = 0#3) ∧
    ∃ (s t : State), s.fault = 0#3 ∧ exec (.ldKey 0x0#4) s = .next t ∧ t.fault = 0#3 ∧ s.keys = 0#16 :=
  ⟨⟨withRegs [], _, rfl, rfl, rfl⟩, ⟨{ withRegs [] with sp := 16#8 }, _, rfl, rfl, rfl, rfl⟩,
    ⟨withRegs [], _, rfl, rfl, rfl⟩, withRegs [], _, rfl, rfl, rfl, rfl⟩

/-- A completed CLS, by a step with no event left and by a scheduled STEP: both sides of the equivalence hold. -/
theorem witness_RedrawMarksCompletedDisplayInstructions :
    (∃ s t : State, s.NextIsStep [] ∧ step s = .next t ∧ t.redraw = true) ∧
    ∃ s t : State, s.NextIsStep [.tick] ∧ step s = .next t ∧ t.redraw = true :=
  ⟨⟨{ withRegs [] with mem := [(0x201, 0xE0#8)] }, _, .inr ⟨rfl, rfl⟩, rfl, by decide⟩,
    { withRegs [] with mem := [(0x201, 0xE0#8)], events := [.step, .tick] }, _, .inl rfl, rfl, by decide⟩

/-- Each of the five ways an instruction may fault, at its boundary. -/
theorem witness_EachInstructionRaisesOnlyItsOwnFault :
    (∃ s t : State, s.fault = 0#3 ∧ exec (.call 0x300#12) s = .next t ∧ t.fault = 1#3) ∧
    (∃ s t : State, s.fault = 0#3 ∧ exec .ret s = .next t ∧ t.fault = 2#3) ∧
    (∃ s t : State, s.fault = 0#3 ∧ exec (.storeRegs 0xF#4) s = .next t ∧ t.fault = 4#3) ∧
    (∃ s t : State, s.fault = 0#3 ∧ exec (.drw 0x1#4 0x2#4 0xF#4) s = .next t ∧ t.fault = 4#3) ∧
    ∃ s t : State, s.fault = 0#3 ∧ exec (.sknp 0x4#4) s = .next t ∧ t.fault = 5#3 :=
  ⟨⟨{ withRegs [] with sp := 16#8 }, _, rfl, rfl, rfl⟩, ⟨withRegs [], _, rfl, rfl, rfl⟩,
    ⟨{ withRegs [] with i := 0x0FF1#16 }, _, rfl, rfl, rfl⟩, ⟨{ withRegs [] with i := 0x0FF2#16 }, _, rfl, rfl, rfl⟩,
    withRegs [(4, 0x10#8)], _, rfl, rfl, rfl⟩

/-- A RET at depth 0, by a step with no event left and by a scheduled STEP. -/
theorem witness_FaultsArePrecise :
    (∃ s t : State, s.NextIsStep [] ∧ s.fault = 0#3 ∧ step s = .next t ∧ t.fault ≠ 0#3) ∧
    ∃ s t : State, s.NextIsStep [.tick] ∧ s.fault = 0#3 ∧ step s = .next t ∧ t.fault ≠ 0#3 :=
  ⟨⟨{ withRegs [] with mem := [(0x201, 0xEE#8)] }, _, .inr ⟨rfl, rfl⟩, rfl, rfl, by decide⟩,
    { withRegs [] with mem := [(0x201, 0xEE#8)], events := [.step, .tick] }, _, .inl rfl, rfl, rfl, by decide⟩

theorem witness_OnlyResetClearsTheLatch :
    ∃ s t : State, s.fault ≠ 0#3 ∧ s.loadDone = true ∧ (∀ rest, s.events ≠ .reset :: rest) ∧ step s = .next t :=
  ⟨{ withRegs [] with fault := 3#3, events := [.tick, .reset] }, _, by decide, rfl, fun _ h => (by cases h), rfl⟩

/-- Memory listed, the stack full, the largest `pc`: a state that meets the invariant. -/
def fullState : State :=
  { withRegs [] with mem := [(4095, 1#8)], sp := 16#8, pc := 0x1002#16, stack := Vector.replicate 16 0x0FFE#16 }

theorem fullState_returns : ∀ k : Fin 16, fullState.stack[k.val].toNat ≤ 0x0FFE := by decide

theorem fullState_inv : fullState.Inv :=
  ⟨by decide, by decide, by decide, by decide, fun k _ => fullState_returns k, fun h => absurd rfl h⟩

theorem witness_EveryStepKeepsTheInvariant : ∃ s t : State, s.Inv ∧ step s = .next t :=
  ⟨fullState, _, fullState_inv, rfl⟩

/-- A state of the invariant, and reachable states of each kind: one that steps, one that fetches a refused word, one whose
LOAD is out of place. -/
theorem witness_ReachableStepsStopOnlyOnRefusedWordsAndLoads :
    (∃ s : State, s.Inv ∧ s.sp = 16#8) ∧
    (∃ s t : State, Reachable s ∧ step s = .next t) ∧
    (∃ s : State, Reachable s ∧ step s = .refused .unnamedAlu8xyE) ∧
    ∃ s : State, Reachable s ∧ step s = .refused .loadOutOfOrder :=
  ⟨⟨fullState, fullState_inv, rfl⟩, ⟨_, _, .reset [], rfl⟩, ⟨_, .step _ _ (.reset [.load [0x81#8, 0x2E#8]]) rfl, rfl⟩,
    _, .step _ _ (.reset [.load [], .load []]) rfl, rfl⟩

end Sys2Proof.Tests
end

/-! PROOF. What an executed instruction can do, said once (Effect, Executed), and the frame and the invariant derived
from it: one rule per operation, then one case per operation. Settles O59, O51, O52 and O57. -/

namespace Sys2Proof.Machine

variable {i : Instr} {s t u : State} {regs : List Reg} {parts : List Part} {d : Directive} {b : Bool} {x : Reg}

/-! ### What an executed instruction can do -/

/-- The change an instruction makes before `pc` moves, one constructor per operation of the state, with the registers and
the parts it may write. -/
inductive Effect (s : State) : List Reg → List Part → State → Prop
  | unchanged {regs : List Reg} {parts : List Part} : Effect s regs parts s
  | result (x : Reg) (a : Byte) : Effect s [x] [] (s.writeV x a)
  | resultAndFlag (x : Reg) (res : Byte × Bool) : Effect s [x, vf] [] (s.writeResultThenFlag x res)
  | load (x : Reg) (base : Nat) :
      Effect s ((List.range (x.toNat + 1)).map (BitVec.ofNat 4)) [] (s.loadedRegs base (x.toNat + 1))
  | index (a : Word) : Effect s [] [.index] (s.writeI a)
  | delayTimer (a : Byte) : Effect s [] [.delayTimer] (s.writeDT a)
  | soundTimer (a : Byte) : Effect s [] [.soundTimer] (s.writeST a)
  | store (base n : Nat) : Effect s [] [.memory] (s.writeMem (s.storedRegs base n))
  | clear : Effect s [] [.screen] (s.writeFB Screen.cleared)
  | draw (fb : Screen) (hit : Bool) : Effect s [vf] [.screen] ((s.writeFB fb).writeV vf (flagByte hit))
  | push (h : s.sp.toNat < 16) : Effect s [] [.stack] (s.push s.pc h)
  | pop (h : 0 < s.sp.toNat) : Effect s [] [.stack] s.drop

/-- A jump goes to a 12-bit address (R131, R132) or past the call on top of the stack (R130). -/
def State.Targets (s : State) : Directive → Prop
  | .jump a => (∃ n, a = zext16 n) ∨ ∃ k : Fin 16, k.val + 1 = s.sp.toNat ∧ a = s.stack[k.val] + 2#16
  | .next | .skip | .wait => True

theorem State.targets_skipIf (c : Bool) : s.Targets (skipIf c) := by
  cases c <;> trivial

/-- The states an instruction may answer: a fault taken and nothing else (R206), or a change of its own destinations
followed by the directive (R111). -/
inductive Executed (i : Instr) (s : State) : State → Prop
  | faulted (k : FaultKind) : Executed i s (s.latchFault k)
  | completed {u : State} {d : Directive} {b : Bool} (hu : Effect s (destRegs i) (destParts i) u) (hd : s.Targets d) :
      Executed i s (u.finish d b)

theorem Executed.of_exec_eq (he : exec i s = .next (u.finish d b)) (h : exec i s = .next t)
    (hu : Effect s (destRegs i) (destParts i) u) (hd : s.Targets d) : Executed i s t := by
  obtain rfl := Host.Outcome.next.inj (he.symm.trans h)
  exact .completed hu hd

/-- Every next state of an instruction is one of these. -/
theorem executed_of_exec (h : exec i s = .next t) : Executed i s t := by
  cases i with
  | cls => exact .of_exec_eq exec_cls h .clear trivial
  | ret =>
    obtain ⟨_, rfl⟩ | ⟨k, hk, rfl⟩ := exec_ret_cases h
    · exact .faulted _
    · exact .completed (.pop (by omega)) (.inr ⟨k, hk, rfl⟩)
  | jp a => exact .of_exec_eq (exec_jp a) h .unchanged (.inl ⟨a, rfl⟩)
  | call a =>
    obtain ⟨_, rfl⟩ | ⟨hs, rfl⟩ := exec_call_cases h
    · exact .faulted _
    · exact .completed (.push hs) (.inl ⟨a, rfl⟩)
  | se x kk => exact .of_exec_eq (exec_se x kk) h .unchanged (State.targets_skipIf _)
  | sne x kk => exact .of_exec_eq (exec_sne x kk) h .unchanged (State.targets_skipIf _)
  | ldByte x kk => exact .of_exec_eq (exec_ldByte x kk) h (.result x _) trivial
  | addByte x kk => exact .of_exec_eq (exec_addByte x kk) h (.result x _) trivial
  | addReg x y => exact .of_exec_eq (exec_addReg x y) h (.resultAndFlag x _) trivial
  | subReg x y => exact .of_exec_eq (exec_subReg x y) h (.resultAndFlag x _) trivial
  | andReg x y => exact .of_exec_eq (exec_andReg x y) h (.result x _) trivial
  | xorReg x y => exact .of_exec_eq (exec_xorReg x y) h (.result x _) trivial
  | shr x y => exact .of_exec_eq (exec_shr x y) h (.resultAndFlag x _) trivial
  | ldReg x y => exact .of_exec_eq (exec_ldReg x y) h (.result x _) trivial
  | ldI a => exact .of_exec_eq (exec_ldI a) h (.index _) trivial
  | addI x => exact .of_exec_eq (exec_addI x) h (.index _) trivial
  | storeRegs x =>
    obtain ⟨_, rfl⟩ | ⟨_, rfl⟩ := exec_storeRegs_cases h
    · exact .faulted _
    · exact .completed (.store _ _) trivial
  | loadRegs x =>
    obtain ⟨_, rfl⟩ | ⟨_, rfl⟩ := exec_loadRegs_cases h
    · exact .faulted _
    · exact .completed (.load x _) trivial
  | drw x y n =>
    obtain ⟨_, _, rfl⟩ | ⟨_, rfl⟩ := exec_drw_cases h
    · exact .faulted _
    · exact .completed (.draw _ _) trivial
  | skp x =>
    obtain ⟨_, rfl⟩ | ⟨_, rfl⟩ := exec_skp_cases h
    · exact .faulted _
    · exact .completed .unchanged (State.targets_skipIf _)
  | sknp x =>
    obtain ⟨_, rfl⟩ | ⟨_, rfl⟩ := exec_sknp_cases h
    · exact .faulted _
    · exact .completed .unchanged (State.targets_skipIf _)
  | ldKey x =>
    obtain ⟨_, rfl⟩ | ⟨k, _, rfl⟩ := exec_ldKey_cases h
    · exact .completed .unchanged trivial
    · exact .completed (.result x _) trivial
  | ldDtVx x => exact .of_exec_eq (exec_ldDtVx x) h (.delayTimer _) trivial
  | ldVxDt x => exact .of_exec_eq (exec_ldVxDt x) h (.result x _) trivial
  | ldStVx x => exact .of_exec_eq (exec_ldStVx x) h (.soundTimer _) trivial
  | unnamed8xy1 x y | unnamed8xy7 x y | unnamed8xyE x y => cases h
  | nop w => exact .of_exec_eq (exec_nop w) h .unchanged trivial

/-! ### The frame of every instruction (R20, R34) -/

theorem Frame.refl (regs : List Reg) (parts : List Part) (s : State) : Frame regs parts s s where
  regs _ _ := rfl
  index _ := rfl
  stack _ := ⟨rfl, rfl⟩
  delayTimer _ := rfl
  soundTimer _ := rfl
  memory _ _ := rfl
  screen _ _ _ := rfl
  keys := rfl
  fault := rfl
  loadDone := rfl
  events := rfl

/-- The directive and the redraw output are outside every frame. -/
theorem Frame.then_finish (h : Frame regs parts s u) (d : Directive) (b : Bool) : Frame regs parts s (u.finish d b) :=
  { h with }

/-- A screen replaced before registers change is in the frame that also names the screen. -/
theorem Frame.of_writeFB {fb : Screen} (h : Frame regs [] (s.writeFB fb) t) : Frame regs [.screen] s t where
  regs := h.regs
  index _ := h.index List.not_mem_nil
  stack _ := h.stack List.not_mem_nil
  delayTimer _ := h.delayTimer List.not_mem_nil
  soundTimer _ := h.soundTimer List.not_mem_nil
  memory _ := h.memory List.not_mem_nil
  screen hp := absurd (List.mem_singleton_self _) hp
  keys := h.keys
  fault := h.fault
  loadDone := h.loadDone
  events := h.events

/-- An operation stays inside its frame, whatever directive follows. -/
theorem Effect.frame_finish (h : Effect s regs parts u) (d : Directive) (b : Bool) :
    Frame regs parts s (u.finish d b) := by
  cases h with
  | unchanged => exact (Frame.refl _ _ s).then_finish d b
  | result x a => exact Frame.writeV s d b x a
  | resultAndFlag x res => exact Frame.writeResultThenFlag s d b x res
  | load x base => exact Frame.loadedRegs s d b base _ x.isLt
  | draw fb hit => exact Frame.of_writeFB (Frame.writeV _ d b vf _)
  | index a | delayTimer a | soundTimer a | store base n | clear | push hs | pop hs =>
    apply Frame.of_part <;> simp

/-- An instruction that answers a next state took a fault or stayed inside its frame. -/
theorem exec_frame (h : exec i s = .next t) :
    (∃ k, FaultTaken k s t) ∨ Frame (destRegs i) (destParts i) s t := by
  cases executed_of_exec h with
  | faulted k => exact .inl ⟨k, rfl⟩
  | completed hu _ => exact .inr (hu.frame_finish _ _)

/-- A register that is no destination reads as before, whether the instruction completed or faulted. -/
theorem exec_readV_of_notMem_destRegs (h : exec i s = .next t) {r : Reg} (hr : r ∉ destRegs i) :
    t.readV r = s.readV r := by
  obtain ⟨k, rfl⟩ | hf := exec_frame h
  · rfl
  · exact hf.regs r hr

/-- A register store leaves every byte outside its transfer (R162). -/
theorem exec_storeRegs_read_outside (h : exec (.storeRegs x) s = .next t) {a : Nat}
    (ha : ∀ k, k ≤ x.toNat → a ≠ effAddr s.i k) : t.mem.read a = s.mem.read a := by
  obtain ⟨_, rfl⟩ | ⟨hi, rfl⟩ := exec_storeRegs_cases h
  · rfl
  · have hout : ¬(s.i.toNat ≤ a ∧ a < s.i.toNat + (x.toNat + 1)) := by
      rintro ⟨hlo, hhi⟩
      exact ha (a - s.i.toNat) (by omega) (Nat.add_sub_of_le hlo).symm
    rw [State.finish_mem, State.writeMem_mem, State.read_storedRegs _ _ _ _ (by omega), if_neg hout]

/-! ### VF (R34) -/

theorem flagByte_eq_zero_or_one (c : Bool) : flagByte c = 0#8 ∨ flagByte c = 1#8 := by
  cases c
  · exact .inl rfl
  · exact .inr rfl

/-- An instruction that writes its result and then the flag leaves a flag in VF, also where x is VF itself (R149). -/
theorem readV_vf_of_writeResultThenFlag {res : Byte × Bool}
    (he : exec i s = .next ((s.writeResultThenFlag x res).finish d b)) (h : exec i s = .next t) :
    t.readV vf = 0#8 ∨ t.readV vf = 1#8 := by
  obtain rfl := Host.Outcome.next.inj (he.symm.trans h)
  rw [State.finish_readV, State.readV_writeResultThenFlag, if_pos rfl]
  exact flagByte_eq_zero_or_one _

/-- A `DRW` leaves the collision flag in VF or takes DataRange (R171). -/
theorem exec_drw_readV_vf {y : Reg} {n : Nibble} (h : exec (.drw x y n) s = .next t) :
    (t.readV vf = 0#8 ∨ t.readV vf = 1#8) ∨ FaultTaken .dataRange s t := by
  obtain ⟨_, _, rfl⟩ | ⟨_, rfl⟩ := exec_drw_cases h
  · exact .inr rfl
  · rw [drawnState, State.finish_readV, State.readV_writeV_self]
    exact .inl (flagByte_eq_zero_or_one _)

/-- A register load short of V15 has no VF among its destinations. -/
theorem vf_notMem_destRegs_loadRegs (hx : x ≠ vf) : vf ∉ destRegs (.loadRegs x) := by
  intro hm
  obtain ⟨k, hk, he⟩ := List.mem_map.1 hm
  have hk : k < x.toNat + 1 := List.mem_range.1 hk
  have he : k % 16 = 15 := by simpa using congrArg BitVec.toNat he
  exact hx (BitVec.eq_of_toNat_eq (show x.toNat = 15 by omega))

/-! ### The invariant -/

/-- The invariant speaks of memory, the stack, `pc`, the latch and the LOAD window only. -/
theorem State.Inv.of_same (h : s.Inv) (hm : t.mem = s.mem) (hsp : t.sp = s.sp) (hst : t.stack = s.stack)
    (hpc : t.pc = s.pc) (hf : t.fault = s.fault) (hl : t.loadDone = s.loadDone) : t.Inv where
  memCanonical := hm ▸ h.memCanonical
  depth := hsp ▸ h.depth
  pcBound := hpc ▸ h.pcBound
  faultCode := hf ▸ h.faultCode
  returns := by
    rw [hsp, hst]
    exact h.returns
  faultAfterStep := by
    rw [hf, hl]
    exact h.faultAfterStep

theorem State.Inv.writeMem (h : s.Inv) {m : Memory} (hm : m.wf = true) : (s.writeMem m).Inv :=
  { h with memCanonical := hm }

/-- A return address pushed is the `pc` of a fetched word (R130). -/
theorem State.Inv.push (h : s.Inv) (hpc : s.pc.toNat ≤ 0x0FFE) (hs : s.sp.toNat < 16) : (s.push s.pc hs).Inv := by
  have hsp : (s.push s.pc hs).sp.toNat = s.sp.toNat + 1 := by
    rw [State.push_sp, BitVec.toNat_add]
    exact Nat.mod_eq_of_lt (show s.sp.toNat + 1 < 256 by omega)
  refine { h with depth := by omega, returns := fun k hk => ?_ }
  simp only [State.push_stack, Vector.getElem_set]
  split
  · exact hpc
  · exact h.returns k (by omega)

theorem State.Inv.drop (h : s.Inv) (hs : 0 < s.sp.toNat) : s.drop.Inv := by
  have hsp : s.drop.sp.toNat = s.sp.toNat - 1 :=
    BitVec.toNat_sub_of_le (x := s.sp) (y := 1) hs
  have hd := h.depth
  exact { h with depth := by omega, returns := fun k hk => h.returns k (by omega) }

theorem FaultKind.code_le_five (k : FaultKind) : k.code.toNat ≤ 5 := by
  cases k <;> decide

/-- A fault taken by a STEP sets one of the five codes (R205). -/
theorem State.Inv.latchFault (h : s.Inv) (hl : s.loadDone = true) (k : FaultKind) : (s.latchFault k).Inv where
  memCanonical := h.memCanonical
  depth := h.depth
  pcBound := h.pcBound
  faultCode := k.code_le_five
  returns := h.returns
  faultAfterStep _ := hl

/-- A directive of a fetched instruction moves `pc` to 0x1002 at most (R24). -/
theorem State.Inv.apply_le (h : s.Inv) (hpc : s.pc.toNat ≤ 0x0FFE) (hd : s.Targets d) :
    (d.apply s.pc).toNat ≤ 0x1002 := by
  cases d with
  | next => simp; omega
  | skip => simp; omega
  | wait => simp; omega
  | jump a =>
    obtain ⟨n, rfl⟩ | ⟨k, hk, rfl⟩ := hd
    · have := n.isLt
      simp; omega
    · have := h.returns k (by omega)
      simp; omega

/-- The operation of an instruction fetched in range keeps the invariant and leaves `pc`. -/
theorem Effect.keeps_inv (he : Effect s regs parts u) (h : s.Inv) (hpc : s.pc.toNat ≤ 0x0FFE) : u.Inv ∧ u.pc = s.pc := by
  cases he with
  | store base n => exact ⟨h.writeMem (State.wf_storedRegs s base n h.memCanonical), rfl⟩
  | push hs => exact ⟨h.push hpc hs, rfl⟩
  | pop hs => exact ⟨h.drop hs, rfl⟩
  | load x base => exact ⟨h.of_same (by simp) (by simp) (by simp) (by simp) (by simp) (by simp), by simp⟩
  | unchanged | result x a | resultAndFlag x res | index a | delayTimer a | soundTimer a | clear | draw fb hit =>
    exact ⟨h.of_same rfl rfl rfl rfl rfl rfl, rfl⟩

/-- An instruction fetched in range, by a STEP, keeps the invariant. -/
theorem exec_keeps_inv (h : s.Inv) (hpc : s.pc.toNat ≤ 0x0FFE) (hl : s.loadDone = true) (he : exec i s = .next t) :
    t.Inv := by
  cases executed_of_exec he with
  | faulted k => exact h.latchFault hl k
  | completed hu hd =>
    obtain ⟨hi, hp⟩ := hu.keeps_inv h hpc
    exact { hi with pcBound := by rw [State.finish_pc, hp]; exact h.apply_le hpc hd }

/-- A STEP closes the LOAD window (R234). -/
theorem State.Inv.closeLoad (h : s.Inv) : State.Inv { s with loadDone := true } :=
  { h with faultAfterStep := fun _ => rfl }

theorem cpuStep_keeps_inv (h : s.Inv) (hs : cpuStep s = .next t) : t.Inv := by
  obtain ⟨_, rfl⟩ | ⟨_, _, rfl⟩ | ⟨_, hpc, he⟩ := cpuStep_cases hs
  · exact h.of_same rfl rfl rfl rfl rfl rfl
  · exact h.closeLoad.latchFault rfl _
  · exact exec_keeps_inv h.closeLoad hpc rfl he

theorem State.reset_inv : State.reset.Inv where
  memCanonical := rfl
  depth := by decide
  pcBound := by decide
  faultCode := by decide
  returns _ hk := absurd hk (Nat.not_lt_zero _)
  faultAfterStep hf := absurd rfl hf

theorem loadEvent_keeps_inv {bytes : List Byte} (h : s.Inv) (hs : loadEvent bytes s = .next t) : t.Inv := by
  obtain ⟨_, _, rfl⟩ := loadEvent_cases hs
  exact { h.closeLoad with memCanonical := Memory.wf_writeBytes bytes s.mem 0x200 h.memCanonical }

theorem applyEvent_keeps_inv {e : Event} (h : s.Inv) (hs : applyEvent e s = .next t) : t.Inv := by
  cases e with
  | reset => cases hs; exact State.reset_inv.of_same rfl rfl rfl rfl rfl rfl
  | load bytes => exact loadEvent_keeps_inv h hs
  | step => exact cpuStep_keeps_inv h hs
  | tick => cases hs; exact h.of_same rfl rfl rfl rfl rfl rfl
  | setKeys k => cases hs; exact h.of_same rfl rfl rfl rfl rfl rfl

/-! ### The fault state (R117, R211) -/

/-- `t` is `s` but for the timers, the keys, the redraw output and the schedule. -/
def SameButTimersAndKeys (s t : State) : Prop :=
  t = { s with dt := t.dt, st := t.st, keys := t.keys, redraw := t.redraw, events := t.events }

theorem cpuStep_of_fault (hf : s.fault ≠ 0#3) (h : cpuStep s = .next t) : t = { s with redraw := false } := by
  obtain ⟨_, ht⟩ | ⟨h0, _⟩ | ⟨h0, _⟩ := cpuStep_cases h
  · exact ht
  · exact absurd h0 hf
  · exact absurd h0 hf

/-- After a STEP has faulted, every event but RESET leaves the machine where it stands. -/
theorem applyEvent_of_fault {e : Event} (hf : s.fault ≠ 0#3) (hl : s.loadDone = true) (hr : e ≠ .reset)
    (h : applyEvent e s = .next t) : SameButTimersAndKeys s t := by
  cases e with
  | reset => exact absurd rfl hr
  | load bytes =>
    obtain ⟨hl', _⟩ := loadEvent_cases h
    simp [hl] at hl'
  | step => rw [cpuStep_of_fault hf h]; rfl
  | tick => cases h; rfl
  | setKeys k => cases h; rfl

theorem step_of_fault (hf : s.fault ≠ 0#3) (hl : s.loadDone = true) (hr : ∀ rest, s.events ≠ .reset :: rest)
    (h : step s = .next t) : SameButTimersAndKeys s t := by
  obtain ⟨_, hs⟩ | ⟨e, rest, he, hs⟩ := step_cases h
  · rw [cpuStep_of_fault hf hs]; rfl
  · exact applyEvent_of_fault (s := { s with events := rest }) hf hl (fun e' => hr rest (e' ▸ he)) hs

end Sys2Proof.Machine

/-! ### The obligations -/

namespace Sys2Proof

open Machine

/-- Settles O59: the event is taken off the schedule, and each of the five events keeps the invariant. -/
theorem everyStepKeepsTheInvariant : Obligations.EveryStepKeepsTheInvariant := by
  intro s t h hs
  obtain ⟨_, hs⟩ | ⟨e, rest, _, hs⟩ := step_cases hs
  · exact cpuStep_keeps_inv h hs
  · exact applyEvent_keeps_inv (s := { s with events := rest }) (h.of_same rfl rfl rfl rfl rfl rfl) hs

/-- Settles O51: the frame of every instruction, and the bytes outside a register store. -/
theorem instructionsWriteOnlyTheirOwn : Obligations.InstructionsWriteOnlyTheirOwn := by
  intro i s t h
  refine ⟨exec_frame h, ?_⟩
  rintro x rfl a ha
  exact exec_storeRegs_read_outside h ha

/-- Settles O52: the four flag writers leave a flag in VF; for every other instruction VF is no destination. -/
theorem vfIsWrittenOnlyAsFlagOrDestination : Obligations.VFIsWrittenOnlyAsFlagOrDestination := by
  intro i s t h
  have keep : vf ∉ destRegs i → t.readV vf = s.readV vf := exec_readV_of_notMem_destRegs h
  cases i with
  | addReg x y => exact readV_vf_of_writeResultThenFlag (exec_addReg x y) h
  | subReg x y => exact readV_vf_of_writeResultThenFlag (exec_subReg x y) h
  | shr x y => exact readV_vf_of_writeResultThenFlag (exec_shr x y) h
  | drw x y n => exact exec_drw_readV_vf h
  | loadRegs x => exact fun hx => keep (vf_notMem_destRegs_loadRegs hx)
  | ldByte x _ | addByte x _ | andReg x _ | xorReg x _ | ldReg x _ | ldKey x | ldVxDt x =>
    exact fun hx => keep fun hm => hx (List.mem_singleton.1 hm).symm
  | cls | ret | jp _ | call _ | se _ _ | sne _ _ | ldI _ | addI _ | storeRegs _ | skp _ | sknp _ | ldDtVx _ | ldStVx _
  | unnamed8xy1 _ _ | unnamed8xy7 _ _ | unnamed8xyE _ _ | nop _ => exact keep List.not_mem_nil

/-- Settles O57: no event but RESET moves a faulted machine in more than its timers, keys, redraw output and schedule. -/
theorem onlyResetClearsTheLatch : Obligations.OnlyResetClearsTheLatch := by
  intro s t hf hl hr h
  rw [step_of_fault hf hl hr h]
  exact ⟨rfl, rfl, rfl, rfl, rfl, rfl, rfl, rfl⟩

end Sys2Proof

/-! PROOF. Canonical memory is determined by its reads, what a register store leaves at each address of its transfer, and
the obligations of 20_memory.md. Settles O41, O39, O40 and O7. -/

namespace Sys2Proof.Machine

variable {s t : State} {x : Reg} {m m' : Memory}

/-! ### Canonical memory is determined by its reads (R50, log entry 6) -/

/-- Below its first listed address a canonical memory reads as nothing listed (R57). -/
theorem Memory.read_of_lt_of_wfAbove {low a : Nat} (ha : a < low) (h : Memory.wfAbove low m = true) :
    m.read a = Memory.unlisted a := by
  induction m generalizing low with
  | nil => rfl
  | cons c rest ih =>
    obtain ⟨b, w⟩ := c
    obtain ⟨hlow, _, _, hrest⟩ := (Memory.wfAbove_cons ..).1 h
    rw [Memory.read_cons, if_neg (by omega)]
    exact ih (by omega) hrest

/-- A memory that reads the same lists the first byte too, or an earlier one: above it, it would read as nothing listed. -/
theorem Memory.not_wfAbove_of_read_eq {low b : Nat} {w : Byte} (h : Memory.wfAbove low ((b, w) :: m) = true)
    (hr : ∀ a, a < 4096 → Memory.read ((b, w) :: m) a = m'.read a) : ¬Memory.wfAbove (b + 1) m' = true := by
  intro h'
  obtain ⟨_, hb, hw, _⟩ := (Memory.wfAbove_cons ..).1 h
  have hreads : w = m'.read b := by simpa [Memory.read_cons] using hr b hb
  exact hw (hreads.trans (Memory.read_of_lt_of_wfAbove (Nat.lt_succ_self b) h'))

/-- Canonical tails behind one address read the same wherever the whole lists do. -/
theorem Memory.read_eq_of_cons_read_eq {b : Nat} {w w' : Byte} (h : Memory.wfAbove (b + 1) m = true)
    (h' : Memory.wfAbove (b + 1) m' = true) {a : Nat}
    (hr : Memory.read ((b, w) :: m) a = Memory.read ((b, w') :: m') a) : m.read a = m'.read a := by
  by_cases hab : a = b
  · rw [Memory.read_of_lt_of_wfAbove (by omega) h, Memory.read_of_lt_of_wfAbove (by omega) h']
  · simpa only [Memory.read_cons, if_neg hab] using hr

/-- Canonical memories that read the same are the same list, by induction along both: their first listed addresses agree,
for a memory that starts above the other's first address does not read the same there. -/
theorem Memory.eq_of_read_eq {low : Nat} (h : Memory.wfAbove low m = true) (h' : Memory.wfAbove low m' = true)
    (hr : ∀ a, a < 4096 → m.read a = m'.read a) : m = m' := by
  have hr' : ∀ a, a < 4096 → m'.read a = m.read a := fun a ha => (hr a ha).symm
  induction m generalizing low m' with
  | nil =>
    cases m' with
    | nil => rfl
    | cons c' rest' => exact absurd rfl (Memory.not_wfAbove_of_read_eq h' hr')
  | cons c rest ih =>
    obtain ⟨b, w⟩ := c
    cases m' with
    | nil => exact absurd rfl (Memory.not_wfAbove_of_read_eq h hr)
    | cons c' rest' =>
      obtain ⟨b', w'⟩ := c'
      obtain ⟨_, hb, hlisted⟩ := (Memory.wfAbove_cons ..).1 h
      obtain ⟨_, hb', hlisted'⟩ := (Memory.wfAbove_cons ..).1 h'
      rcases Nat.lt_trichotomy b b' with hlt | rfl | hgt
      · exact absurd ((Memory.wfAbove_cons ..).2 ⟨hlt, hb', hlisted'⟩) (Memory.not_wfAbove_of_read_eq h hr)
      · have hbyte : w = w' := by simpa [Memory.read_cons] using hr b hb
        have htail : ∀ a, a < 4096 → Memory.read rest a = Memory.read rest' a := fun a ha =>
          Memory.read_eq_of_cons_read_eq hlisted.2 hlisted'.2 (hr a ha)
        rw [hbyte, ih hlisted.2 hlisted'.2 htail fun a ha => (htail a ha).symm]
      · exact absurd ((Memory.wfAbove_cons ..).2 ⟨hgt, hb, hlisted⟩) (Memory.not_wfAbove_of_read_eq h' hr')

/-! ### What a register store leaves in memory (R162) -/

/-- A register store that fits leaves each stored register at its own effective address (R162). -/
theorem exec_storeRegs_read_inside (h : exec (.storeRegs x) s = .next t) (hi : s.i.toNat + x.toNat ≤ 0xFFF) {r : Reg}
    (hr : r.toNat ≤ x.toNat) : t.mem.read (effAddr s.i r.toNat) = s.readV r := by
  obtain ⟨hout, _⟩ | ⟨_, rfl⟩ := exec_storeRegs_cases h
  · omega
  · rw [State.finish_mem, State.writeMem_mem, State.read_storedRegs _ _ _ _ (by omega), effAddr, if_pos (by omega),
      Nat.add_sub_cancel_left, BitVec.ofNat_toNat, BitVec.setWidth_eq]

end Sys2Proof.Machine

/-! ### The obligations of memory -/

namespace Sys2Proof

open Machine

/-- Settles O41: both bytes fetched are bytes of the store, each holding its own register. -/
theorem storeIsSeenByTheNextFetch : Obligations.StoreIsSeenByTheNextFetch := by
  intro x k k' s t hi h hk hk' hpc
  have hlo : t.pc.toNat + 1 = effAddr s.i k'.toNat := by
    rw [hpc, hk, effAddr, effAddr, Nat.add_assoc]
  rw [State.fetchWord, hlo, hpc, exec_storeRegs_read_inside h hi (by omega), exec_storeRegs_read_inside h hi hk']

/-- Settles O39, by induction from the last write back: it is the answer at its own address, and elsewhere the writes
before it are. -/
theorem memoryReadsTheMostRecentWrite : Obligations.MemoryReadsTheMostRecentWrite := by
  intro m writes a
  induction writes using List.reverseRecOn with
  | nil => exact fun _ => rfl
  | append_singleton ws w ih =>
    intro hw
    have hlast : w.1 < 4096 := hw w (by simp)
    have ih := ih fun v hv => hw v (by simp [hv])
    rw [List.foldl_append, List.reverse_concat', List.foldl_cons, List.foldl_nil, Memory.read_write _ _ _ _ hlast]
    by_cases ha : a = w.1
    · rw [if_pos ha, List.find?_cons_of_pos (by simp [ha])]
    · rw [if_neg ha, List.find?_cons_of_neg (by simpa using Ne.symm ha), ih]

/-- Settles O40: canonical form lists nothing twice, out of order or at the value of an unlisted byte. -/
theorem canonicalMemoryIsItsBytes : Obligations.CanonicalMemoryIsItsBytes := by
  intro m m' h h' hr
  exact Memory.eq_of_read_eq h h' hr

/-- Settles O7: the value of a word made of two bytes, at the two bytes fetched. -/
theorem fetchIsBigEndian : Obligations.FetchIsBigEndian := by
  intro s
  rw [State.fetchWord, wordOfBytes_toNat]

end Sys2Proof

/-! PROOF. The two round trips of the encoding, the bits the decoder reads to choose an instruction, and the opcode map as
what the decoder answers (30_encoding.md R81 to R93), with the obligations of the encoding chapter. -/

namespace Sys2Proof

section

variable {w : Word} {op : Nibble} {n : Nibble} {kk : Byte} {p q : OpcodeRow}

/-! ### A word is the encoding of what it decodes to -/

theorem encodeNNN_of_fieldOp (ho : fieldOp w = op) : encodeNNN op (fieldNNN w) = w := by
  rw [← ho, encodeNNN_fields]

theorem encodeXKK_of_fields (ho : fieldOp w = op) (hk : fieldKK w = kk) : encodeXKK op (fieldX w) kk = w := by
  rw [← ho, ← hk, encodeXKK_fields]

theorem encodeXYN_of_fields (ho : fieldOp w = op) (hn : fieldN w = n) : encodeXYN op (fieldX w) (fieldY w) n = w := by
  rw [← ho, ← hn, encodeXYN_fields]

theorem encode_decodeFamily0 (w : Word) : encode (decodeFamily0 w) = w := by
  unfold decodeFamily0
  split
  · next h => exact h.symm
  · split
    · next h => exact h.symm
    · rfl

theorem encode_decodeFamily8 (ho : fieldOp w = 0x8#4) : encode (decodeFamily8 w) = w := by
  unfold decodeFamily8
  split
  case h_10 => rfl
  all_goals exact encodeXYN_of_fields ho ‹_›

theorem encode_decodeFamilyE (ho : fieldOp w = 0xE#4) : encode (decodeFamilyE w) = w := by
  unfold decodeFamilyE
  split
  case h_3 => rfl
  all_goals exact encodeXKK_of_fields ho ‹_›

theorem encode_decodeFamilyF (ho : fieldOp w = 0xF#4) : encode (decodeFamilyF w) = w := by
  unfold decodeFamilyF
  split
  case h_8 => rfl
  all_goals exact encodeXKK_of_fields ho ‹_›

theorem encode_decode (w : Word) : encode (decode w) = w := by
  unfold decode
  split
  · exact encode_decodeFamily0 w
  · next ho => exact encodeNNN_of_fieldOp ho
  · next ho => exact encodeNNN_of_fieldOp ho
  · next ho => exact encodeXKK_of_fields ho rfl
  · next ho => exact encodeXKK_of_fields ho rfl
  · next ho => exact encodeXKK_of_fields ho rfl
  · next ho => exact encodeXKK_of_fields ho rfl
  · next ho => exact encode_decodeFamily8 ho
  · next ho => exact encodeNNN_of_fieldOp ho
  · next ho => exact encodeXYN_of_fields ho rfl
  · next ho => exact encode_decodeFamilyE ho
  · next ho => exact encode_decodeFamilyF ho
  · rfl

/-! ### The bits that choose the instruction (R83, R85) -/

/-- The bits of a word that the decoder reads to choose the instruction, where the word's op field is `op`. -/
def dispatchMask (op : Nibble) : Word :=
  match op with
  | 0x0#4 => 0xFFFF#16
  | 0x8#4 => 0xF00F#16
  | 0xE#4 | 0xF#4 => 0xF0FF#16
  | _ => 0xF000#16

/-- A mask that covers a slice leaves the slice. -/
theorem extract_and_of_mask {k s l : Nat} (v : BitVec k) {m : BitVec k} (hm : m.extractLsb' s l = BitVec.allOnes l) :
    (v &&& m).extractLsb' s l = v.extractLsb' s l := by
  rw [extract_and, hm, BitVec.and_allOnes]

theorem fieldOp_dispatchMask (op : Nibble) : fieldOp (dispatchMask op) = 0xF#4 := by
  unfold dispatchMask
  split <;> rfl

theorem fieldOp_and_dispatchMask (w : Word) (op : Nibble) : fieldOp (w &&& dispatchMask op) = fieldOp w :=
  extract_and_of_mask w (fieldOp_dispatchMask op)

theorem mnemonic_decodeFamily8_congr {u v : Word} (h : fieldN u = fieldN v) :
    (decodeFamily8 u).mnemonic = (decodeFamily8 v).mnemonic := by
  unfold decodeFamily8
  rw [h]
  split <;> rfl

theorem mnemonic_decodeFamilyE_congr {u v : Word} (h : fieldKK u = fieldKK v) :
    (decodeFamilyE u).mnemonic = (decodeFamilyE v).mnemonic := by
  unfold decodeFamilyE
  rw [h]
  split <;> rfl

theorem mnemonic_decodeFamilyF_congr {u v : Word} (h : fieldKK u = fieldKK v) :
    (decodeFamilyF u).mnemonic = (decodeFamilyF v).mnemonic := by
  unfold decodeFamilyF
  rw [h]
  split <;> rfl

/-- The mnemonic depends on no bit outside the dispatch mask. -/
theorem mnemonic_decode_and_dispatchMask (w : Word) :
    (decode (w &&& dispatchMask (fieldOp w))).mnemonic = (decode w).mnemonic := by
  unfold decode
  rw [fieldOp_and_dispatchMask]
  split
  case h_1 ho =>
    have hw : w &&& dispatchMask (fieldOp w) = w := by
      rw [ho]
      exact BitVec.and_allOnes
    rw [hw]
  case h_8 ho => exact mnemonic_decodeFamily8_congr (extract_and_of_mask w (by rw [ho]; rfl))
  case h_11 ho => exact mnemonic_decodeFamilyE_congr (extract_and_of_mask w (by rw [ho]; rfl))
  case h_12 ho => exact mnemonic_decodeFamilyF_congr (extract_and_of_mask w (by rw [ho]; rfl))
  all_goals rfl

/-! ### The rows of the opcode map and the decoder (R84, R88) -/

theorem mask_of_mem_opcodeRows : ∀ p ∈ opcodeRows, p.mask = dispatchMask (fieldOp p.value) := by decide

theorem mnemonic_decode_value : ∀ p ∈ opcodeRows, (decode p.value).mnemonic = p.mnemonic := by decide

theorem mnemonic_ne_nop : ∀ p ∈ opcodeRows, p.mnemonic ≠ "NOP" := by decide

theorem opcodeRows_values_nodup : (opcodeRows.map OpcodeRow.value).Nodup := by decide

/-- A word that selects a row has the row's value in the bits the decoder dispatches on. -/
theorem value_of_selects (hp : p ∈ opcodeRows) (hs : p.selects w = true) :
    p.value = w &&& dispatchMask (fieldOp w) := by
  have hv : w &&& dispatchMask (fieldOp p.value) = p.value := mask_of_mem_opcodeRows p hp ▸ eq_of_beq hs
  have ho : fieldOp w = fieldOp p.value := by rw [← fieldOp_and_dispatchMask w (fieldOp p.value), hv]
  rw [ho, hv]

theorem eq_of_selects (hp : p ∈ opcodeRows) (hq : q ∈ opcodeRows) (hsp : p.selects w = true)
    (hsq : q.selects w = true) : p = q :=
  List.inj_on_of_nodup_map opcodeRows_values_nodup hp hq
    ((value_of_selects hp hsp).trans (value_of_selects hq hsq).symm)

theorem mnemonic_decode_of_selects (hp : p ∈ opcodeRows) (hs : p.selects w = true) :
    (decode w).mnemonic = p.mnemonic := by
  rw [← mnemonic_decode_and_dispatchMask, ← value_of_selects hp hs, mnemonic_decode_value p hp]

theorem unrecognized_iff (w : Word) : unrecognized w = true ↔ ∀ p ∈ opcodeRows, p.selects w = false := by
  simp [unrecognized]

theorem unrecognized_of_mnemonic_decode (h : (decode w).mnemonic = "NOP") : unrecognized w = true := by
  refine (unrecognized_iff w).2 fun p hp => Bool.eq_false_iff.2 fun hs => mnemonic_ne_nop p hp ?_
  rw [← mnemonic_decode_of_selects hp hs, h]

theorem decode_wellFormed (w : Word) : (decode w).WellFormed = true := by
  cases hd : decode w with
  | nop v =>
    have hv : v = w := by rw [← encode_decode w, hd, encode]
    rw [hv]
    exact unrecognized_of_mnemonic_decode (by rw [hd, Instr.mnemonic])
  | _ => rfl

/-! ### The encoder and the rows -/

theorem Laws.EncodeSelectsRow.statement : ∀ i : Instr, Statement i
  | .cls => cls
  | .ret => ret
  | .jp nnn => jp nnn
  | .call nnn => call nnn
  | .se x kk => se x kk
  | .sne x kk => sne x kk
  | .ldByte x kk => ldByte x kk
  | .addByte x kk => addByte x kk
  | .addReg x y => addReg x y
  | .subReg x y => subReg x y
  | .andReg x y => andReg x y
  | .xorReg x y => xorReg x y
  | .shr x y => shr x y
  | .ldReg x y => ldReg x y
  | .ldI nnn => ldI nnn
  | .addI x => addI x
  | .storeRegs x => storeRegs x
  | .loadRegs x => loadRegs x
  | .drw x y n => drw x y n
  | .skp x => skp x
  | .sknp x => sknp x
  | .ldKey x => ldKey x
  | .ldDtVx x => ldDtVx x
  | .ldVxDt x => ldVxDt x
  | .ldStVx x => ldStVx x
  | .unnamed8xy1 x y => unnamed8xy1 x y
  | .unnamed8xy7 x y => unnamed8xy7 x y
  | .unnamed8xyE x y => unnamed8xyE x y
  | .nop w => nop w

/-- Every instruction but `nop` has a row, and its word selects it. -/
theorem exists_row_selects_encode {i : Instr} (hi : ∀ v, i ≠ .nop v) :
    ∃ p ∈ opcodeRows, p.selects (encode i) = true := by
  have hrow : (opcodeRows.find? fun row => row.mnemonic == i.mnemonic).isSome = true := by
    cases i with
    | nop v => exact absurd rfl (hi v)
    | _ => rfl
  obtain ⟨p, hp⟩ := Option.isSome_iff_exists.1 hrow
  have hs := Laws.EncodeSelectsRow.statement i
  rw [Laws.EncodeSelectsRow.Statement, hp] at hs
  exact ⟨p, List.mem_of_find?_eq_some hp, hs⟩

theorem decode_of_unrecognized (h : unrecognized w = true) : decode w = .nop w := by
  by_cases hd : ∃ v, decode w = .nop v
  · obtain ⟨v, hv⟩ := hd
    rw [hv, ← encode_decode w, hv, encode]
  · obtain ⟨p, hp, hs⟩ := exists_row_selects_encode (not_exists.1 hd)
    rw [encode_decode] at hs
    exact absurd hs (by simp [(unrecognized_iff w).1 h p hp])

theorem decode_encode {i : Instr} (h : i.WellFormed = true) : decode (encode i) = i := by
  cases i with
  | nop w => exact decode_of_unrecognized h
  | cls | ret => decide
  | jp | call | ldI | se | sne | ldByte | addByte | drw => simp [encode, decode]
  | addReg | subReg | andReg | xorReg | shr | ldReg | unnamed8xy1 | unnamed8xy7 | unnamed8xyE =>
    simp [encode, decode, decodeFamily8]
  | skp | sknp => simp [encode, decode, decodeFamilyE]
  | addI | storeRegs | loadRegs | ldKey | ldDtVx | ldVxDt | ldStVx => simp [encode, decode, decodeFamilyF]

/-! ### Fields as masks and shifts (R81) -/

/-- A slice of a word, zero-extended, is the word under the mask of the slice, shifted down. -/
theorem setWidth_extract_eq_and_shift {k : Nat} (v : BitVec k) (s l : Nat) :
    (v.extractLsb' s l).setWidth k = (v &&& (BitVec.allOnes l).setWidth k <<< s) >>> s := by
  ext i hi
  simp only [BitVec.getElem_setWidth, BitVec.getLsbD_extractLsb', BitVec.getElem_ushiftRight, BitVec.getLsbD_and,
    BitVec.getLsbD_shiftLeft, BitVec.getLsbD_setWidth, BitVec.getLsbD_allOnes]
  by_cases h : s + i < k
  · simp [h, hi, Bool.and_comm]
  · simp [BitVec.getLsbD_of_ge v (s + i) (by omega)]

end

/-! ### The obligations -/

/-- Settles O4: the decoder reads back the fields of each format; for a NOP word it finds no row. -/
theorem decodeOfEncodeIsTheInstruction : Obligations.DecodeOfEncodeIsTheInstruction := by
  intro i h
  exact decode_encode h

/-- Settles O5: no arm of the decoder drops a field, and a word it answers `nop` for selects no row. -/
theorem encodeOfDecodeIsTheWord : Obligations.EncodeOfDecodeIsTheWord := by
  intro w
  exact ⟨encode_decode w, decode_wellFormed w⟩

/-- Settles O1: each field is a slice of the word, and each format is laid out by appending. -/
theorem fieldsAreMasksAndShifts : Obligations.FieldsAreMasksAndShifts := by
  refine ⟨fun w => ⟨?_, ?_, ?_, ?_, ?_, ?_⟩, by simp, by simp, by simp⟩
  · exact setWidth_extract_eq_and_shift w 12 4
  · exact setWidth_extract_eq_and_shift w 8 4
  · exact setWidth_extract_eq_and_shift w 4 4
  · exact setWidth_extract_eq_and_shift w 0 4
  · exact setWidth_extract_eq_and_shift w 0 8
  · exact setWidth_extract_eq_and_shift w 0 12

/-- Settles O2: two rows that one word selects have one value. -/
theorem everyWordSelectsAtMostOneRow : Obligations.EveryWordSelectsAtMostOneRow :=
  ⟨fun _ _ _ => eq_of_selects, unrecognized_iff⟩

/-- Settles O3: every word is the encoding of what it decodes to, so the operands are its fields. -/
theorem decoderFollowsTheOpcodeMap : Obligations.DecoderFollowsTheOpcodeMap := by
  refine ⟨fun _ _ => mnemonic_decode_of_selects, fun _ => decode_of_unrecognized, fun w => ?_⟩
  have hw := encode_decode w
  generalize decode w = i at hw
  subst hw
  cases i <;> simp [encode]

/-- Settles O6: the decoder evaluated at each of the ten words. -/
theorem workedWordsDecodeAsWritten : Obligations.WorkedWordsDecodeAsWritten := by
  unfold Obligations.WorkedWordsDecodeAsWritten
  decide

end Sys2Proof

/-! PROOF. What step answers where the next event is a STEP or a scheduled event, the two ways an executed instruction
ends (40_step_cycle.md R111, R113, R115), and when a step has no next state. Settles O60, O9, O53, O54, O8, O10, O11,
O12, O14 and O24. -/

namespace Sys2Proof.Machine

variable {i : Instr} {s t u : State} {d : Directive} {e : Event} {rest : List Event}

/-! ### What step answers (R110, R111, R112) -/

theorem step_of_events_cons (he : s.events = e :: rest) : step s = applyEvent e { s with events := rest } := by
  rw [step, nextEvent, he]

theorem cpuStep_of_fetch_in (hf : s.fault = 0#3) (hp : s.pc.toNat ≤ 0x0FFE) :
    cpuStep s = exec (decode s.fetchWord) { s with loadDone := true } := by
  rw [cpuStep, if_neg (not_not.2 hf), if_pos ((State.fetchInRange_iff s).2 hp)]

/-- A STEP, scheduled or not, of a machine that runs and whose `pc` is in the fetch range. -/
theorem step_of_fetch_in (hn : s.NextIsStep rest) (hf : s.fault = 0#3) (hp : s.pc.toNat ≤ 0x0FFE) :
    step s = exec (decode s.fetchWord) { s with loadDone := true, events := rest } :=
  (step_of_nextIsStep hn).trans (cpuStep_of_fetch_in (s := { s with events := rest }) hf hp)

/-- A STEP, scheduled or not, in the fault state. -/
theorem step_of_latched (hn : s.NextIsStep rest) (hf : s.fault ≠ 0#3) :
    step s = .next { s with redraw := false, events := rest } := by
  rw [step_of_nextIsStep hn, cpuStep, if_pos hf]

/-! ### The instruction of a table word, placed at `pc` (log entry 5) -/

theorem placeInstruction_pc_le (s : State) (hi lo : Byte) : (placeInstruction s hi lo).pc.toNat ≤ 0x0FFE := by
  dsimp only [placeInstruction]
  split
  · next h => exact (State.fetchInRange_iff s).1 h
  · decide

theorem placeInstruction_mem (s : State) (hi lo : Byte) :
    (placeInstruction s hi lo).mem =
      (s.mem.write (placeInstruction s hi lo).pc.toNat hi).write ((placeInstruction s hi lo).pc.toNat + 1) lo := rfl

@[simp] theorem fetchWord_placeInstruction (s : State) (hi lo : Byte) :
    (placeInstruction s hi lo).fetchWord = wordOfBytes hi lo := by
  have hp := placeInstruction_pc_le s hi lo
  rw [State.fetchWord, placeInstruction_mem, Memory.read_write_self _ _ _ (by omega),
    Memory.read_write_of_ne _ _ _ _ (by omega), Memory.read_write_self _ _ _ (by omega)]

theorem step_placeInstruction (s : State) (hi lo : Byte) :
    step (placeInstruction s hi lo) = exec (decode (wordOfBytes hi lo)) (placeInstruction s hi lo) := by
  rw [step_of_fetch_in (.inr ⟨rfl, rfl⟩) rfl (placeInstruction_pc_le s hi lo), fetchWord_placeInstruction]
  rfl

@[simp] theorem tableWord_toNat (w : Word) : tableWord 16 w.toNat = w := by
  rw [tableWord, Nat.mod_eq_of_lt w.isLt, BitVec.ofNat_toNat, BitVec.setWidth_eq]

/-! ### How an executed instruction ends (R111, R113, R115) -/

theorem FaultKind.code_ne_zero (k : FaultKind) : k.code ≠ 0#3 := by
  cases k <;> decide

theorem State.lowestKey_eq_none_iff_keys (s : State) : s.lowestKey = none ↔ s.keys = 0#16 := by
  rw [State.lowestKey_eq_none, BitVec.eq_of_getLsbD_eq_iff]
  simp [State.keyHeld]

/-- The instructions that output `redraw = 1` when they complete (R115). -/
def redraws : Instr → Bool
  | .cls => true
  | .drw _ _ _ => true
  | _ => false

theorem redraws_iff : redraws i = true ↔ i = .cls ∨ ∃ x y n, i = .drw x y n := by
  cases i <;> simp [redraws]

/-- The directives an instruction may complete with (R113). -/
def Directs (i : Instr) (s : State) (d : Directive) : Prop :=
  match i with
  | .jp a => d = .jump (zext16 a)
  | .call a => d = .jump (zext16 a)
  | .ret => ∃ k : Fin 16, k.val + 1 = s.sp.toNat ∧ d = .jump (s.stack[k.val] + 2#16)
  | .se _ _ => ∃ c, d = skipIf c
  | .sne _ _ => ∃ c, d = skipIf c
  | .skp _ => ∃ c, d = skipIf c
  | .sknp _ => ∃ c, d = skipIf c
  | .ldKey _ => d = if s.keys = 0#16 then .wait else .next
  | _ => d = .next

/-- The two ways an executed instruction ends: a fault taken, or `pc` moved by its own directive and its own redraw
output, from a state that its operation left at the same `pc` and latch. -/
inductive Ended (i : Instr) (s : State) : State → Prop
  | faulted (k : FaultKind) : Ended i s (s.latchFault k)
  | completed {u : State} {d : Directive} (hd : Directs i s d) (hpc : u.pc = s.pc) (hf : u.fault = s.fault) :
      Ended i s (u.finish d (redraws i))

theorem Ended.of_exec_eq (he : exec i s = .next (u.finish d (redraws i))) (h : exec i s = .next t)
    (hd : Directs i s d) (hpc : u.pc = s.pc) (hf : u.fault = s.fault) : Ended i s t := by
  obtain rfl := Host.Outcome.next.inj (he.symm.trans h)
  exact .completed hd hpc hf

/-- Every next state of an instruction is one of these ends. -/
theorem ended_of_exec (h : exec i s = .next t) : Ended i s t := by
  cases i with
  | cls => exact .of_exec_eq exec_cls h rfl rfl rfl
  | ret =>
    obtain ⟨_, rfl⟩ | ⟨k, hk, rfl⟩ := exec_ret_cases h
    · exact .faulted _
    · exact .completed (i := .ret) ⟨k, hk, rfl⟩ rfl rfl
  | jp a => exact .of_exec_eq (exec_jp a) h rfl rfl rfl
  | call a =>
    obtain ⟨_, rfl⟩ | ⟨hs, rfl⟩ := exec_call_cases h
    · exact .faulted _
    · exact .completed (i := .call a) rfl rfl rfl
  | se x kk => exact .of_exec_eq (exec_se x kk) h ⟨_, rfl⟩ rfl rfl
  | sne x kk => exact .of_exec_eq (exec_sne x kk) h ⟨_, rfl⟩ rfl rfl
  | ldByte x kk => exact .of_exec_eq (exec_ldByte x kk) h rfl rfl rfl
  | addByte x kk => exact .of_exec_eq (exec_addByte x kk) h rfl rfl rfl
  | addReg x y => exact .of_exec_eq (exec_addReg x y) h rfl rfl rfl
  | subReg x y => exact .of_exec_eq (exec_subReg x y) h rfl rfl rfl
  | andReg x y => exact .of_exec_eq (exec_andReg x y) h rfl rfl rfl
  | xorReg x y => exact .of_exec_eq (exec_xorReg x y) h rfl rfl rfl
  | shr x y => exact .of_exec_eq (exec_shr x y) h rfl rfl rfl
  | ldReg x y => exact .of_exec_eq (exec_ldReg x y) h rfl rfl rfl
  | ldI a => exact .of_exec_eq (exec_ldI a) h rfl rfl rfl
  | addI x => exact .of_exec_eq (exec_addI x) h rfl rfl rfl
  | storeRegs x =>
    obtain ⟨_, rfl⟩ | ⟨_, rfl⟩ := exec_storeRegs_cases h
    · exact .faulted _
    · exact .completed (i := .storeRegs x) rfl rfl rfl
  | loadRegs x =>
    obtain ⟨_, rfl⟩ | ⟨_, rfl⟩ := exec_loadRegs_cases h
    · exact .faulted _
    · exact .completed (i := .loadRegs x) rfl (State.loadedRegs_pc ..) (State.loadedRegs_fault ..)
  | drw x y n =>
    obtain ⟨_, _, rfl⟩ | ⟨_, rfl⟩ := exec_drw_cases h
    · exact .faulted _
    · exact .completed (i := .drw x y n) rfl rfl rfl
  | skp x =>
    obtain ⟨_, rfl⟩ | ⟨_, rfl⟩ := exec_skp_cases h
    · exact .faulted _
    · exact .completed (i := .skp x) ⟨_, rfl⟩ rfl rfl
  | sknp x =>
    obtain ⟨_, rfl⟩ | ⟨_, rfl⟩ := exec_sknp_cases h
    · exact .faulted _
    · exact .completed (i := .sknp x) ⟨_, rfl⟩ rfl rfl
  | ldKey x =>
    obtain ⟨hk, rfl⟩ | ⟨k, hk, rfl⟩ := exec_ldKey_cases h
    · have hkeys : s.keys = 0#16 := s.lowestKey_eq_none_iff_keys.1 hk
      exact .completed (i := .ldKey x) (if_pos hkeys).symm rfl rfl
    · have hkeys : s.keys ≠ 0#16 := fun h0 => by simp [s.lowestKey_eq_none_iff_keys.2 h0] at hk
      exact .completed (i := .ldKey x) (if_neg hkeys).symm rfl rfl
  | ldDtVx x => exact .of_exec_eq (exec_ldDtVx x) h rfl rfl rfl
  | ldVxDt x => exact .of_exec_eq (exec_ldVxDt x) h rfl rfl rfl
  | ldStVx x => exact .of_exec_eq (exec_ldStVx x) h rfl rfl rfl
  | unnamed8xy1 x y | unnamed8xy7 x y | unnamed8xyE x y => cases h
  | nop w => exact .of_exec_eq (exec_nop w) h rfl rfl rfl

/-- An instruction that ends with the latch clear has moved `pc` by one of its directives. -/
theorem exec_pc_of_unfaulted (h : exec i s = .next t) (hf : t.fault = 0#3) :
    ∃ d, Directs i s d ∧ t.pc = d.apply s.pc := by
  cases ended_of_exec h with
  | faulted k => exact absurd hf k.code_ne_zero
  | completed hd hpc _ => exact ⟨_, hd, by rw [State.finish_pc, hpc]⟩

/-- An instruction of a running machine outputs `redraw = 1` exactly when it is a display instruction and completes. -/
theorem exec_redraw_iff (h : exec i s = .next t) (hf : s.fault = 0#3) :
    t.redraw = true ↔ t.fault = 0#3 ∧ redraws i = true := by
  cases ended_of_exec h with
  | faulted k => simp [k.code_ne_zero]
  | completed _ _ hf' => simp [hf'.trans hf]

/-! ### When an instruction or an event has no next state (R150, R233, R234) -/

/-- The three undescribed slots of family 8 (R88). -/
def Unnamed (i : Instr) : Prop := ∃ x y, i = .unnamed8xy1 x y ∨ i = .unnamed8xy7 x y ∨ i = .unnamed8xyE x y

theorem withTransfer_answers {k : Nat → Result} (len : Nat) (hk : ∀ a, ∃ t, k a = .next t) :
    ∃ t, withTransfer len s k = .next t := by
  unfold withTransfer
  split
  · exact hk _
  · exact ⟨_, rfl⟩

theorem withKeyIndex_answers {k : Nat → Result} (x : Reg) (hk : ∀ a, ∃ t, k a = .next t) :
    ∃ t, withKeyIndex x s k = .next t := by
  unfold withKeyIndex
  split
  · exact ⟨_, rfl⟩
  · exact hk _

/-- A return has an entry to return through where the depth is at most 16 (R26). -/
theorem exec_ret_answers (hd : s.sp.toNat ≤ 16) : ∃ t, exec .ret s = .next t := by
  simp only [exec, execRet, State.top_of_depth s hd]
  split <;> exact ⟨_, rfl⟩

/-- A call has an entry to write or overflows where the depth is at most 16 (R26). -/
theorem exec_call_answers (a : Addr12) (hd : s.sp.toNat ≤ 16) : ∃ t, exec (.call a) s = .next t := by
  simp only [exec, execCall]
  split
  · exact ⟨_, rfl⟩
  · next hne =>
    have hlt : s.sp.toNat < 16 := lt_of_le_of_ne hd fun h => hne (BitVec.eq_of_toNat_eq h)
    exact ⟨_, dif_pos hlt⟩

theorem exec_ldKey_answers (x : Reg) : ∃ t, exec (.ldKey x) s = .next t := by
  simp only [exec, execLdKey]
  split <;> exact ⟨_, rfl⟩

/-- An instruction has no next state only where it is refused, or the depth is above 16 (R26). -/
theorem exec_answers_or_unnamed (i : Instr) (hd : s.sp.toNat ≤ 16) : (∃ t, exec i s = .next t) ∨ Unnamed i := by
  cases i with
  | ret => exact .inl (exec_ret_answers hd)
  | call a => exact .inl (exec_call_answers a hd)
  | storeRegs x => exact .inl (withTransfer_answers _ fun _ => ⟨_, rfl⟩)
  | loadRegs x => exact .inl (withTransfer_answers _ fun _ => ⟨_, rfl⟩)
  | drw x y n => exact .inl (withTransfer_answers _ fun _ => ⟨_, rfl⟩)
  | skp x => exact .inl (withKeyIndex_answers x fun _ => ⟨_, rfl⟩)
  | sknp x => exact .inl (withKeyIndex_answers x fun _ => ⟨_, rfl⟩)
  | ldKey x => exact .inl (exec_ldKey_answers x)
  | unnamed8xy1 x y => exact .inr ⟨x, y, .inl rfl⟩
  | unnamed8xy7 x y => exact .inr ⟨x, y, .inr (.inl rfl)⟩
  | unnamed8xyE x y => exact .inr ⟨x, y, .inr (.inr rfl)⟩
  | _ => exact .inl ⟨_, rfl⟩

/-- A STEP, scheduled or not, has no next state only where it executes a refused word. -/
theorem step_answers_or_unnamed (hn : s.NextIsStep rest) (hd : s.sp.toNat ≤ 16) :
    (∃ t, step s = .next t) ∨
      (s.fault = 0#3 ∧ s.pc.toNat ≤ 0x0FFE ∧ (∃ rest, s.NextIsStep rest) ∧ Unnamed (decode s.fetchWord)) := by
  by_cases hf : s.fault = 0#3
  · by_cases hp : s.pc.toNat ≤ 0x0FFE
    · rw [step_of_fetch_in hn hf hp]
      exact (exec_answers_or_unnamed (s := { s with loadDone := true, events := rest }) _ hd).imp_right
        fun hu => ⟨hf, hp, ⟨rest, hn⟩, hu⟩
    · exact .inl ⟨_, step_of_fetch_out hn hf (Nat.lt_of_not_le hp)⟩
  · exact .inl ⟨_, step_of_latched hn hf⟩

/-- A LOAD has no next state only where it is out of order or too long (R233, R234). -/
theorem loadEvent_answers_or (bytes : List Byte) :
    (∃ t, loadEvent bytes s = .next t) ∨ s.loadDone = true ∨ bytes.length > 3584 := by
  unfold loadEvent
  split
  · next hl => exact .inr (.inl hl)
  · split
    · exact .inl ⟨_, rfl⟩
    · next hb => exact .inr (.inr (Nat.lt_of_not_le hb))

end Sys2Proof.Machine

/-! ### The obligations of the step cycle -/

namespace Sys2Proof

open Machine

/-- Settles O60: by the next event of the schedule, whose only refusals are an undescribed word and a LOAD out of place;
the invariant keeps the stack pointer where RET and CALL have an entry. -/
theorem reachableStepsStopOnlyOnRefusedWordsAndLoads :
    Obligations.ReachableStepsStopOnlyOnRefusedWordsAndLoads := by
  constructor
  · intro s hinv
    have stepCase {rest : List Event} (hn : s.NextIsStep rest) := step_answers_or_unnamed hn hinv.depth
    cases he : s.events with
    | nil => exact (stepCase (.inr ⟨he, rfl⟩)).imp_right .inl
    | cons e rest =>
      have hstep : step s = applyEvent e { s with events := rest } := step_of_events_cons he
      cases e with
      | step => exact (stepCase (.inl he)).imp_right .inl
      | load bytes =>
        obtain ⟨t, ht⟩ | hout := loadEvent_answers_or (s := { s with events := rest }) bytes
        · exact .inl ⟨t, hstep.trans ht⟩
        · exact .inr (.inr ⟨bytes, rest, rfl, hout⟩)
      | reset | tick | setKeys k => exact .inl ⟨_, hstep⟩
  · intro s
    exact reachable_invariant (fun _ => State.reset_inv.of_same rfl rfl rfl rfl rfl rfl) everyStepKeepsTheInvariant

/-- Settles O9: the two bytes stored are the two bytes fetched. -/
theorem placedTableWordRunsNext : Obligations.PlacedTableWordRunsNext := by
  intro s w
  constructor
  · rw [State.withFetchWord, step_placeInstruction, wordOfBytes_bytes, tableWord_toNat]
  · simp [decodeTableWord, tableBytes, decodeBytes, Except.toOption]

/-- Settles O53: an instruction that ends unfaulted has moved `pc` by one of its own directives. -/
theorem pcMovesByTheDirective : Obligations.PcMovesByTheDirective := by
  intro i s t _ h ht
  obtain ⟨d, hd, hpc⟩ := exec_pc_of_unfaulted h ht
  cases i with
  | ret =>
    obtain ⟨k, hk, rfl⟩ := hd
    exact ⟨k, hk, hpc⟩
  | se _ _ | sne _ _ | skp _ | sknp _ =>
    obtain ⟨c, rfl⟩ := hd
    cases c
    · exact .inl hpc
    · exact .inr hpc
  | ldKey _ =>
    obtain rfl := hd
    exact hpc.trans (apply_ite (Directive.apply · s.pc) ..)
  | _ =>
    obtain rfl := hd
    exact hpc

/-- Settles O54: a STEP that is void or faults at the fetch outputs no redraw; else the executed instruction decides. -/
theorem redrawMarksCompletedDisplayInstructions : Obligations.RedrawMarksCompletedDisplayInstructions := by
  intro s t rest hn h
  obtain ⟨hf, rfl⟩ | ⟨_, _, rfl⟩ | ⟨hf, _, he⟩ := step_nextIsStep_cases hn h
  · simp [hf]
  · simp [FaultKind.code_ne_zero]
  · rw [exec_redraw_iff he hf, redraws_iff, and_iff_right hf]

/-- Settles O8: both ways a STEP comes next; with no event left the schedule stays empty. -/
theorem stepRunsTheDecodedInstruction : Obligations.StepRunsTheDecodedInstruction := by
  intro s hf hp
  constructor
  · intro he
    rw [step_of_fetch_in (.inr ⟨he, rfl⟩) hf hp, ← he]
  · intro rest he
    exact step_of_fetch_in (.inl he) hf hp

/-- Settles O10: code 3 of the latch is the fetch fault taken. -/
theorem fetchOutsideMemoryFaults : Obligations.FetchOutsideMemoryFaults := by
  intro s rest hn hf hp
  exact step_of_fetch_out hn hf hp

/-- Settles O11: the latch is looked at before the fetch. -/
theorem stepInTheFaultStateIsVoid : Obligations.StepInTheFaultStateIsVoid := by
  intro s rest hn hf
  exact step_of_latched hn hf

/-- Settles O12: the head of the schedule is the next event. -/
theorem scheduledEventIsAppliedAlone : Obligations.ScheduledEventIsAppliedAlone := by
  intro s e rest he
  exact step_of_events_cons he

/-- Settles O14: the snapshot is the word of the event itself. -/
theorem setKeysReplacesTheSnapshot : Obligations.SetKeysReplacesTheSnapshot := by
  intro s k rest he
  exact ⟨_, step_of_events_cons he, fun _ _ => rfl, rfl⟩

/-- Settles O24: the frame of a completion that no operation comes before. -/
theorem nopOnlyAdvances : Obligations.NopOnlyAdvances := by
  intro w s
  exact ⟨_, exec_nop w, rfl, rfl, Frame.finish s .next false⟩

end Sys2Proof

/-! PROOF. What CALL and RET answer at the depths where they complete, as equations, and what a CALL followed by a RET
leaves of the state; the obligations of 41_control_flow.md. Settles O22, O18, O19, O20 and O23. -/

namespace Sys2Proof.Machine

variable {s : State}

/-! ### The return stack (R26, R27) -/

theorem State.push_sp_toNat (a : Word) (hs : s.sp.toNat < 16) : (s.push a hs).sp.toNat = s.sp.toNat + 1 := by
  rw [State.push_sp]
  bv_omega

theorem State.drop_sp_toNat (h0 : 0 < s.sp.toNat) : s.drop.sp.toNat = s.sp.toNat - 1 := by
  rw [State.drop_sp]
  bv_omega

/-- The entry a push writes is the one the old depth names (R27). -/
theorem State.push_stack_getElem_self (a : Word) (hs : s.sp.toNat < 16) : (s.push a hs).stack[s.sp.toNat] = a :=
  Vector.getElem_set_self hs

theorem State.push_stack_getElem_of_ne (a : Word) (hs : s.sp.toNat < 16) {k : Fin 16} (hk : k.val ≠ s.sp.toNat) :
    (s.push a hs).stack[k.val] = s.stack[k.val] :=
  Vector.getElem_set_ne hs k.isLt hk.symm

/-- A pop takes the depth back to where it was before a push, and erases nothing (R130). -/
theorem State.push_drop (a : Word) (hs : s.sp.toNat < 16) :
    (s.push a hs).drop = { s with stack := s.stack.set s.sp.toNat a hs } := by
  simp [State.push, State.drop]

/-! ### Jumps, and CALL and RET where they complete (R130, R131, R132) -/

/-- A jump's 12-bit address keeps its value in `pc` (R131, D22). -/
theorem zext16_toNat (a : Addr12) : (zext16 a).toNat = a.toNat := BitVec.toNat_setWidth_of_le (by decide)

theorem exec_call_of_depth (a : Addr12) (hs : s.sp.toNat < 16) :
    exec (.call a) s = .next ((s.push s.pc hs).finish (.jump (zext16 a)) false) := by
  obtain ⟨t, ht⟩ := exec_call_answers a hs.le
  obtain ⟨hfull, _⟩ | ⟨_, rfl⟩ := exec_call_cases ht
  · omega
  · exact ht

theorem exec_ret_of_depth {k : Fin 16} (hk : k.val + 1 = s.sp.toNat) :
    exec .ret s = .next (s.drop.finish (.jump (s.stack[k.val] + 2#16)) false) := by
  obtain ⟨t, ht⟩ := exec_ret_answers (s := s) (by omega)
  obtain ⟨hempty, _⟩ | ⟨j, hj, rfl⟩ := exec_ret_cases ht
  · omega
  · obtain rfl : j = k := Fin.ext (by omega)
    exact ht

/-- A RET right after a CALL ends as a NOP in the CALL's place would, but for the stack entry the CALL wrote (R130). -/
theorem exec_ret_after_call (a : Addr12) (hs : s.sp.toNat < 16) :
    exec .ret ((s.push s.pc hs).finish (.jump (zext16 a)) false) =
      .next (State.finish { s with stack := s.stack.set s.sp.toNat s.pc hs } .next false) := by
  have hk : s.sp.toNat + 1 = ((s.push s.pc hs).finish (.jump (zext16 a)) false).sp.toNat :=
    (State.push_sp_toNat s.pc hs).symm
  rw [exec_ret_of_depth (k := ⟨s.sp.toNat, hs⟩) hk, State.finish_stack, State.push_stack_getElem_self,
    ← State.push_drop s.pc hs]
  rfl

end Sys2Proof.Machine

/-! ### The obligations of control flow -/

namespace Sys2Proof

open Machine

/-- Settles O22: CALL then RET is a NOP but for the stack entry at the old depth. -/
theorem callThenRetReturnsAfterTheCall : Obligations.CallThenRetReturnsAfterTheCall := by
  intro a s t u hs hcall hret
  obtain rfl := Host.Outcome.next.inj ((exec_call_of_depth a hs).symm.trans hcall)
  obtain rfl := Host.Outcome.next.inj ((exec_ret_after_call a hs).symm.trans hret)
  refine ⟨rfl, rfl, ?_, fun k hk => State.push_stack_getElem_of_ne s.pc hs hk⟩
  apply Frame.of_part <;> simp

/-- Settles O18: the word is the encoding of the jump, and the jump moves `pc` only. -/
theorem jpJumpsToItsAddress : Obligations.JpJumpsToItsAddress := by
  intro a s
  have hdecode : decode (encode (.jp a)) = .jp a := decode_encode rfl
  exact ⟨hdecode, _, exec_jp a, zext16_toNat a, rfl, Frame.finish s _ false⟩

/-- Settles O19: below depth 16 the push has an entry to write. -/
theorem callPushesItsOwnAddress : Obligations.CallPushesItsOwnAddress := by
  intro a s hs
  exact ⟨_, exec_call_of_depth a hs, State.push_stack_getElem_self s.pc hs,
    fun k hk => State.push_stack_getElem_of_ne s.pc hs hk, State.push_sp_toNat s.pc hs, zext16_toNat a, rfl,
    (Effect.push hs).frame_finish _ _⟩

/-- Settles O20: the entry below the depth is the one the return jumps past. -/
theorem retJumpsPastTheCall : Obligations.RetJumpsPastTheCall := by
  intro s h0 h
  have hk : (⟨s.sp.toNat - 1, by omega⟩ : Fin 16).val + 1 = s.sp.toNat := Nat.sub_add_cancel h0
  exact ⟨_, exec_ret_of_depth hk, State.drop_sp_toNat h0, rfl, BitVec.toNat_add _ _, rfl,
    (Effect.pop h0).frame_finish _ _⟩

/-- Settles O23: the directive is a skip exactly under the instruction's own condition. -/
theorem seAndSneSkipOnTheirCondition : Obligations.SeAndSneSkipOnTheirCondition := by
  intro x kk s
  constructor
  · refine ⟨_, exec_se x kk, ?_, rfl, Frame.finish s _ false⟩
    simp [skipIf_apply]
  · refine ⟨_, exec_sne x kk, ?_, rfl, Frame.finish s _ false⟩
    simp [skipIf_apply]

end Sys2Proof

/-! PROOF. What the flag writers of 42_alu.md leave in Vx and in VF once they complete, and the flag byte as a number; the
obligations of 42_alu.md. Settles O25, O26, O27, O28, O29, O30, O31 and O32. -/

namespace Sys2Proof.Machine

variable {x : Reg} {d : Directive} {b : Bool}

/-! ### The result and the flag of a completed flag writer (R149) -/

/-- The result stands where the flag, written last, does not replace it. -/
theorem State.readV_result_of_ne_vf (s : State) (res : Byte × Bool) (hx : x ≠ vf) :
    ((s.writeResultThenFlag x res).finish d b).readV x = res.1 := by
  rw [State.finish_readV, State.readV_writeResultThenFlag, if_neg hx, if_pos rfl]

/-- VF ends holding the flag for every x (D9). -/
theorem State.readV_vf_eq_flagByte (s : State) (res : Byte × Bool) :
    ((s.writeResultThenFlag x res).finish d b).readV vf = flagByte res.2 := by
  rw [State.finish_readV, State.readV_writeResultThenFlag, if_pos rfl]

/-! ### The flag byte (R34) -/

theorem flagByte_eq_ite {c : Bool} {P : Prop} [Decidable P] (h : c = true ↔ P) :
    flagByte c = if P then 1#8 else 0#8 :=
  if_congr h rfl rfl

/-- The flag of `SHR`, as a number, is the bit shifted out (R146). -/
theorem flagByte_shiftRightOne_toNat (a : Byte) : (flagByte (shiftRightOne a).2).toNat = a.toNat % 2 := by
  rw [flagByte_eq_ite (shiftRightOne_flag a)]
  obtain hz | ho := Nat.mod_two_eq_zero_or_one a.toNat
  · simp [hz]
  · simp [ho]

end Sys2Proof.Machine

/-! ### The obligations of the register and arithmetic instructions -/

namespace Sys2Proof

open Machine

/-- Settles O25: a register reads as last written. -/
theorem ldByteAssignsTheImmediate : Obligations.LdByteAssignsTheImmediate := by
  intro x kk s
  exact ⟨_, exec_ldByte x kk, State.readV_writeV_self s x kk, rfl, rfl, Frame.writeV s _ _ x _⟩

/-- Settles O26: one register is written, with the sum modulo 256. -/
theorem addByteWrapsWithoutAFlag : Obligations.AddByteWrapsWithoutAFlag := by
  intro x kk s
  refine ⟨_, exec_addByte x kk, ?_, rfl, rfl, Frame.writeV s _ _ x _⟩
  rw [State.finish_readV, State.readV_writeV_self, addNoFlag_toNat]

/-- Settles O27: a register reads as last written. -/
theorem ldRegCopies : Obligations.LdRegCopies := by
  intro x y s
  exact ⟨_, exec_ldReg x y, State.readV_writeV_self s x _, rfl, rfl, Frame.writeV s _ _ x _⟩

/-- Settles O28: the word operations act on each bit, and one register is written. -/
theorem andXorCombineBitwise : Obligations.AndXorCombineBitwise := by
  intro x y s
  constructor
  · refine ⟨_, exec_andReg x y, fun j _ => ?_, rfl, rfl, Frame.writeV s _ _ x _⟩
    rw [State.finish_readV, State.readV_writeV_self, BitVec.getLsbD_and]
  · refine ⟨_, exec_xorReg x y, fun j _ => ?_, rfl, rfl, Frame.writeV s _ _ x _⟩
    rw [State.finish_readV, State.readV_writeV_self, BitVec.getLsbD_xor]

/-- Settles O29: the sum is the result, the carry the flag written after it. -/
theorem addRegSetsCarry : Obligations.AddRegSetsCarry := by
  intro x y s
  refine ⟨_, exec_addReg x y, fun hx => ?_, ?_, rfl, rfl, Frame.writeResultThenFlag s _ _ x _⟩
  · rw [State.readV_result_of_ne_vf s _ hx, addCarry_toNat]
  · rw [State.readV_vf_eq_flagByte, flagByte_eq_ite (addCarry_flag _ _)]

/-- Settles O30: subtraction on the naturals is the saturating one; the flag is the strict comparison (D10). -/
theorem subRegSaturatesAtZero : Obligations.SubRegSaturatesAtZero := by
  intro x y s
  refine ⟨_, exec_subReg x y, fun hx => ?_, ?_, rfl, rfl, Frame.writeResultThenFlag s _ _ x _⟩
  · rw [State.readV_result_of_ne_vf s _ hx, subSaturating_toNat]
    split
    · rfl
    · omega
  · rw [State.readV_vf_eq_flagByte, flagByte_eq_ite (subSaturating_flag _ _)]

/-- Settles O31: both results are computed from Vx alone, so the `y` field is free (R86). -/
theorem shrShiftsOutIntoVF : Obligations.ShrShiftsOutIntoVF := by
  intro x y s
  constructor
  · refine ⟨_, exec_shr x y, fun hx => ?_, ?_, rfl, rfl, Frame.writeResultThenFlag s _ _ x _⟩
    · rw [State.readV_result_of_ne_vf s _ hx, shiftRightOne_toNat]
    · rw [State.readV_vf_eq_flagByte, flagByte_shiftRightOne_toNat]
  · intro z
    rw [exec_shr, exec_shr]

/-- Settles O32: the meaning of each slot is its refusal, which looks at no state (D12). -/
theorem unnamedSlotsAreRefused : Obligations.UnnamedSlotsAreRefused := by
  intro x y s
  exact ⟨rfl, rfl, rfl⟩

end Sys2Proof

/-! PROOF. The two register transfers where they fit memory, as equations, and what a load leaves in the registers; the
obligations of 43_index_memory.md. Settles O37, O33, O34, O35 and O36. -/

namespace Sys2Proof.Machine

variable {s t : State} {x r : Reg}

/-! ### The transfers where they fit (R164) -/

theorem exec_storeRegs_of_fits (hi : s.i.toNat + x.toNat ≤ 0xFFF) :
    exec (.storeRegs x) s = .next ((s.writeMem (s.storedRegs s.i.toNat (x.toNat + 1))).finish .next false) := by
  rw [exec, execStoreRegs, withTransfer_of_fits s (regCount x) _ (.inr (by rw [regCount]; omega))]
  rfl

theorem exec_loadRegs_of_fits (hi : s.i.toNat + x.toNat ≤ 0xFFF) :
    exec (.loadRegs x) s = .next ((s.loadedRegs s.i.toNat (x.toNat + 1)).finish .next false) := by
  rw [exec, execLoadRegs, withTransfer_of_fits s (regCount x) _ (.inr (by rw [regCount]; omega))]
  rfl

/-- A register store that leaves the latch clear did not overrun memory (R204). -/
theorem exec_storeRegs_unfaulted (h : exec (.storeRegs x) s = .next t) (hf : t.fault = 0#3) :
    s.i.toNat + x.toNat ≤ 0xFFF ∧
      t = (s.writeMem (s.storedRegs s.i.toNat (x.toNat + 1))).finish .next false := by
  obtain ⟨_, rfl⟩ | hfits := exec_storeRegs_cases h
  · exact absurd hf (FaultKind.code_ne_zero .dataRange)
  · exact hfits

/-! ### What a register load leaves in the registers (R163) -/

/-- A register load that fits leaves in each register up to x the byte at its own effective address. -/
theorem exec_loadRegs_readV_of_le (h : exec (.loadRegs x) s = .next t) (hi : s.i.toNat + x.toNat ≤ 0xFFF)
    (hr : r.toNat ≤ x.toNat) : t.readV r = s.mem.read (effAddr s.i r.toNat) := by
  obtain rfl := Host.Outcome.next.inj ((exec_loadRegs_of_fits hi).symm.trans h)
  rw [State.finish_readV, State.readV_loadedRegs _ _ _ _ x.isLt, if_pos (Nat.lt_succ_of_le hr), effAddr]

/-- A register load leaves every register above x, whether it completes or faults. -/
theorem exec_loadRegs_readV_of_gt (h : exec (.loadRegs x) s = .next t) (hr : x.toNat < r.toNat) :
    t.readV r = s.readV r := by
  obtain ⟨_, rfl⟩ | ⟨_, rfl⟩ := exec_loadRegs_cases h
  · rfl
  · rw [State.finish_readV, State.readV_loadedRegs _ _ _ _ x.isLt, if_neg (Nat.not_lt_of_le hr)]

end Sys2Proof.Machine

/-! ### The obligations of the index register and memory -/

namespace Sys2Proof

open Machine

/-- Settles O37: the store did not fault, so it fits; the load reads at the same `I`, where each byte is its own
register's. -/
theorem storeThenLoadRestoresRegisters : Obligations.StoreThenLoadRestoresRegisters := by
  intro x s t t' u hstore hfault hclear hmem hindex hload r hr
  obtain ⟨hfits, ht⟩ := exec_storeRegs_unfaulted hstore (hfault.trans hclear)
  have hsame : t'.i = s.i := by rw [hindex, ht, State.finish_i, State.writeMem_i]
  rw [exec_loadRegs_readV_of_le hload (hsame ▸ hfits) hr, hsame, hmem, exec_storeRegs_read_inside hstore hfits hr]

/-- Settles O33: the zero-extension keeps the address's value (D22). -/
theorem ldISetsTheIndex : Obligations.LdISetsTheIndex := by
  intro a s
  exact ⟨_, exec_ldI a, zext16_toNat a, rfl, rfl, (Effect.index _).frame_finish _ _⟩

/-- Settles O34: only `I` is written, with the sum modulo 65536 (D23). -/
theorem addIWrapsAtSixteenBits : Obligations.AddIWrapsAtSixteenBits := by
  intro x s
  exact ⟨_, exec_addI x, addIndex_toNat _ _, rfl, rfl, (Effect.index _).frame_finish _ _⟩

/-- Settles O35: inside the transfer a byte is its register's, outside it is as before. -/
theorem storeRegsStoresFromI : Obligations.StoreRegsStoresFromI := by
  intro x s hi
  have h := exec_storeRegs_of_fits hi
  exact ⟨_, h, fun r hr => exec_storeRegs_read_inside h hi hr, fun a ha => exec_storeRegs_read_outside h ha, rfl, rfl,
    (Effect.store _ _).frame_finish _ _⟩

/-- Settles O36: a register up to x is its byte, a register above is as before. -/
theorem loadRegsLoadsFromI : Obligations.LoadRegsLoadsFromI := by
  intro x s hi
  have h := exec_loadRegs_of_fits hi
  refine ⟨_, h, fun r hr => exec_loadRegs_readV_of_le h hi hr, fun r hr => exec_loadRegs_readV_of_gt h hr, ?_, rfl,
    (Effect.load x _).frame_finish _ _⟩
  rw [State.finish_pc, State.loadedRegs_pc, Directive.apply_next]

end Sys2Proof

/-! PROOF. A draw by the sprite bit at each pixel: when it collides, and what a second draw of the same sprite sees; DRW
where its sprite fits memory, as an equation; the obligations of 44_display.md. Settles O43, O44, O45 and O42. -/

namespace Sys2Proof.Machine

/-! ### The sprite bit at a pixel (R172) -/

/-- Some target with bit 1 is at a pixel of which `p` holds exactly when some pixel with bit 1 has `p`. -/
theorem any_target_iff_exists_bitAt (ts : List Target) (p : Fin 32 → Fin 64 → Bool) :
    (ts.any fun t => t.2.2 && p t.1 t.2.1) = true ↔ ∃ r c, bitAt ts r c = true ∧ p r c = true := by
  simp only [bitAt, List.any_eq_true, Bool.and_eq_true, decide_eq_true_eq]
  constructor
  · rintro ⟨t, ht, hbit, hp⟩
    exact ⟨t.1, t.2.1, ⟨t, ht, ⟨rfl, rfl⟩, hbit⟩, hp⟩
  · rintro ⟨_, _, ⟨t, ht, ⟨rfl, rfl⟩, hbit⟩, hp⟩
    exact ⟨t, ht, hbit, hp⟩

/-- The pixels with bit 1 are the wrapped places of the sprite's 1 bits. -/
theorem bitAt_rowTargets_iff (x y : Nat) (bs : List Byte) (r : Fin 32) (c : Fin 64) :
    bitAt (rowTargets x y 0 bs) r c = true ↔ ∃ (row col : Nat) (h : row < bs.length),
      col < 8 ∧ drawRow y row = r ∧ drawCol x col = c ∧ spriteBit bs[row] col = true := by
  simp only [bitAt, List.any_eq_true, Bool.and_eq_true, decide_eq_true_eq, mem_rowTargets, Nat.zero_add]
  constructor
  · rintro ⟨_, ⟨row, h, col, hcol, rfl⟩, ⟨hr, hc⟩, hbit⟩
    exact ⟨row, col, h, hcol, hr, hc, hbit⟩
  · rintro ⟨row, col, h, hcol, hr, hc, hbit⟩
    exact ⟨_, ⟨row, h, col, hcol, rfl⟩, ⟨hr, hc⟩, hbit⟩

/-- A byte with a 1 bit has it at one of the eight columns. -/
theorem exists_spriteBit_of_ne_zero {b : Byte} (hb : b ≠ 0x00#8) : ∃ col < 8, spriteBit b col = true := by
  by_contra hnone
  push Not at hnone
  refine hb (BitVec.eq_of_getLsbD_eq fun i hi => ?_)
  have hcol : spriteBit b (7 - i) ≠ true := hnone (7 - i) (by omega)
  rw [spriteBit, Nat.sub_sub_self (Nat.le_of_lt_succ hi)] at hcol
  simpa using hcol

/-- A sprite with a byte other than 0 has bit 1 at some pixel. -/
theorem exists_bitAt_of_ne_zero (x y : Nat) {bs : List Byte} (hbs : ∃ b ∈ bs, b ≠ 0x00#8) :
    ∃ r c, bitAt (rowTargets x y 0 bs) r c = true := by
  obtain ⟨b, hmem, hb⟩ := hbs
  obtain ⟨row, hrow, rfl⟩ := List.getElem_of_mem hmem
  obtain ⟨col, hcol, hbit⟩ := exists_spriteBit_of_ne_zero hb
  exact ⟨_, _, (bitAt_rowTargets_iff ..).2 ⟨row, col, hrow, hcol, rfl, rfl, hbit⟩⟩

/-! ### One draw and two draws (R174) -/

section

variable (fb : Screen) (x y : Nat) {bs : List Byte} (h : bs.length ≤ 32)

include h

theorem Screen.collision_draw_iff :
    (fb.draw x y bs).2 = true ↔ ∃ r c, bitAt (rowTargets x y 0 bs) r c = true ∧ fb.pixel r c = true := by
  rw [Screen.collision_draw fb x y bs h, any_target_iff_exists_bitAt]

/-- The second draw of a sprite undoes the first: each pixel is xored with one bit twice (R174 (b)). -/
theorem Screen.draw_draw : ((fb.draw x y bs).1.draw x y bs).1 = fb := by
  refine Screen.ext_pixel fun r c => ?_
  rw [Screen.pixel_draw _ x y bs h, Screen.pixel_draw fb x y bs h, Bool.xor_assoc, Bool.xor_self, Bool.xor_false]

/-- The second draw of a sprite collides where a sprite bit of 1 met a pixel that was off (C11). -/
theorem Screen.collision_draw_draw_iff :
    ((fb.draw x y bs).1.draw x y bs).2 = true ↔
      ∃ r c, bitAt (rowTargets x y 0 bs) r c = true ∧ fb.pixel r c = false := by
  rw [Screen.collision_draw_iff _ x y h]
  refine exists_congr fun r => exists_congr fun c => and_congr_right fun hbit => ?_
  rw [Screen.pixel_draw fb x y bs h, hbit, Bool.xor_true, Bool.not_eq_true']

/-- The first draw turns on the pixels that were off and have a sprite bit of 1. -/
theorem Screen.turnedOn_iff (r : Fin 32) (c : Fin 64) :
    fb.pixel r c = false ∧ (fb.draw x y bs).1.pixel r c = true ↔
      bitAt (rowTargets x y 0 bs) r c = true ∧ fb.pixel r c = false := by
  rw [Screen.pixel_draw fb x y bs h, and_comm]
  refine and_congr_left fun hoff => ?_
  rw [hoff, Bool.false_xor]

end

/-! ### DRW where its sprite fits (R171) -/

theorem exec_drw_of_fits {s : State} (x y : Reg) {n : Nibble} (hn : n.toNat = 0 ∨ s.i.toNat + n.toNat - 1 ≤ 0xFFF) :
    exec (.drw x y n) s = .next (drawnState s x y n) := by
  rw [exec, execDrw, withTransfer_of_fits s n.toNat _ (by omega)]
  rfl

end Sys2Proof.Machine

/-! ### The obligations of the display -/

namespace Sys2Proof

open Machine

/-- Settles O43: each pixel is xored with the sprite bit at it, and the draw collides where that bit and the pixel are
both 1. -/
theorem drawXorsTheSpriteWithWrap : Obligations.DrawXorsTheSpriteWithWrap := by
  intro fb x y bytes hlen
  have hlen : bytes.length ≤ 32 := by omega
  have row_eq (r : Fin 32) (row : Nat) : r.val = (y + row) % 32 ↔ drawRow y row = r := by
    rw [drawRow, Fin.ext_iff, eq_comm]
  have col_eq (c : Fin 64) (col : Nat) : c.val = (x + col) % 64 ↔ drawCol x col = c := by
    rw [drawCol, Fin.ext_iff, eq_comm]
  simp only [row_eq, col_eq]
  refine ⟨?_, ?_, ?_⟩
  · rintro row col _ _ hrow hcol rfl rfl
    rw [Screen.pixel_draw fb x y bytes hlen, bitAt_rowTargets x y bytes hlen row col hrow hcol, spriteBit]
  · intro r c hno
    rw [Screen.pixel_draw fb x y bytes hlen,
      bitAt_rowTargets_of_not x y bytes r c fun row hrow col hcol => hno row col hrow hcol, Bool.xor_false]
  · rw [Screen.collision_draw_iff fb x y hlen]
    constructor
    · rintro ⟨r, c, hbit, hon⟩
      obtain ⟨row, col, hrow, hcol, hr, hc, hbit⟩ := (bitAt_rowTargets_iff x y bytes r c).1 hbit
      exact ⟨row, col, r, c, hrow, hcol, hr, hc, hbit, hon⟩
    · rintro ⟨row, col, r, c, hrow, hcol, hr, hc, hbit, hon⟩
      exact ⟨r, c, (bitAt_rowTargets_iff x y bytes r c).2 ⟨row, col, hrow, hcol, hr, hc, hbit⟩, hon⟩

/-- Settles O44: the sprite is the n bytes read at `I`, and VF is written last, with the collision flag. -/
theorem drwDrawsTheSpriteAtI : Obligations.DrwDrawsTheSpriteAtI := by
  intro x y n s hn
  refine ⟨s.mem.readBytes s.i.toNat n.toNat, _, exec_drw_of_fits x y hn, Memory.length_readBytes _ _ _,
    Memory.getElem_readBytes _ _ _, rfl, ?_, rfl, rfl, (Effect.draw _ _).frame_finish _ _⟩
  rw [drawnState, State.finish_readV, State.readV_writeV_self, flagByte]

/-- Settles O45: at a pixel with a sprite bit of 1 the first draw collides if the pixel is on, and turns it on for the
second to collide with if it is off. -/
theorem drawTwiceRestoresTheScreen : Obligations.DrawTwiceRestoresTheScreen := by
  intro fb x y bytes hlen
  have hlen : bytes.length ≤ 32 := by omega
  refine ⟨Screen.draw_draw fb x y hlen, ?_, fun hbytes => ?_⟩
  · simp only [Screen.collision_draw_draw_iff fb x y hlen, Screen.turnedOn_iff fb x y hlen]
  · rw [Screen.collision_draw_iff fb x y hlen, Screen.collision_draw_draw_iff fb x y hlen]
    obtain ⟨r, c, hbit⟩ := exists_bitAt_of_ne_zero x y hbytes
    cases hpixel : fb.pixel r c with
    | true => exact .inl ⟨r, c, hbit, hpixel⟩
    | false => exact .inr ⟨r, c, hbit, hpixel⟩

/-- Settles O42: the screen is replaced by the cleared one, and nothing else is written. -/
theorem clsTurnsEveryPixelOff : Obligations.ClsTurnsEveryPixelOff := by
  have hdecode : decode (encode .cls) = .cls := decode_encode rfl
  exact ⟨hdecode, fun s => ⟨_, exec_cls, Screen.pixel_cleared, rfl, rfl, Effect.clear.frame_finish _ _⟩⟩

end Sys2Proof

/-! PROOF. A timer after n TICKs, and what the key instructions answer where they complete or wait, as equations; the
obligations of 45_keys_timers.md. Settles O13, O46, O48, O49 and O50. -/

namespace Sys2Proof.Machine

variable {s : State} {x : Reg}

/-! ### The timers (R192) -/

/-- Subtraction on the naturals has the floor that the TICK's own test gives a timer. -/
theorem tickTimer_toNat_eq_ite (b : Byte) : (tickTimer b).toNat = if b.toNat > 0 then b.toNat - 1 else 0 := by
  rw [tickTimer_toNat]
  split
  · rfl
  · omega

theorem tickTimer_iterate_toNat (b : Byte) (n : Nat) : (tickTimer^[n] b).toNat = b.toNat - n := by
  induction n with
  | zero => rfl
  | succ n ih => rw [Function.iterate_succ_apply', tickTimer_toNat, ih, Nat.sub_sub]

theorem tickEvent_iterate_dt (s : State) (n : Nat) : (tickEvent^[n] s).dt = tickTimer^[n] s.dt :=
  Function.Semiconj.iterate_right (f := State.dt) tickEvent_dt n s

theorem tickEvent_iterate_st (s : State) (n : Nat) : (tickEvent^[n] s).st = tickTimer^[n] s.st :=
  Function.Semiconj.iterate_right (f := State.st) tickEvent_st n s

/-! ### The key instructions where they do not fault (R185, R186, R187) -/

theorem skipIf_not_apply (c : Bool) (pc : Word) :
    (skipIf (!c)).apply pc = if c then pc + 2#16 else pc + 4#16 := by
  cases c <;> rfl

theorem exec_skp_of_key (hk : (s.readV x).toNat ≤ 15) :
    exec (.skp x) s = .next (s.finish (skipIf (s.keyHeld (s.readV x).toNat)) false) := by
  rw [exec, execSkp, withKeyIndex_of_key s x _ hk, complete_eq_next]

theorem exec_sknp_of_key (hk : (s.readV x).toNat ≤ 15) :
    exec (.sknp x) s = .next (s.finish (skipIf (!s.keyHeld (s.readV x).toNat)) false) := by
  rw [exec, execSknp, withKeyIndex_of_key s x _ hk, complete_eq_next]

theorem exec_ldKey_of_some (x : Reg) {k : Nat} (hk : s.lowestKey = some k) :
    exec (.ldKey x) s = .next ((s.writeV x (BitVec.ofNat 8 k)).finish .next false) := by
  simp only [exec, execLdKey, hk, complete_eq_next]

theorem exec_ldKey_of_none (x : Reg) (hk : s.lowestKey = none) :
    exec (.ldKey x) s = .next (s.finish .wait false) := by
  simp only [exec, execLdKey, hk, complete_eq_next]

end Sys2Proof.Machine

/-! ### The obligations of the keys and timers -/

namespace Sys2Proof

open Machine

/-- Settles O13: a TICK acts on each timer by itself, so n TICKs iterate the timer's own decrement, by induction on n. -/
theorem tickDecrementsEachTimer : Obligations.TickDecrementsEachTimer := by
  constructor
  · intro s rest he
    exact ⟨_, step_of_events_cons he, tickTimer_toNat_eq_ite s.dt, tickTimer_toNat_eq_ite s.st, rfl⟩
  · intro s n
    rw [tickEvent_iterate_dt, tickEvent_iterate_st]
    exact ⟨tickTimer_iterate_toNat s.dt n, tickTimer_iterate_toNat s.st n⟩

/-- Settles O46: a register of at most 15 names a key, and the directive is a skip exactly under the instruction's own
condition on it. -/
theorem skpAndSknpSkipOnTheKey : Obligations.SkpAndSknpSkipOnTheKey := by
  intro x s hx
  constructor
  · exact ⟨_, exec_skp_of_key hx, skipIf_apply _ _, rfl, Frame.finish s _ false⟩
  · exact ⟨_, exec_sknp_of_key hx, skipIf_not_apply _ _, rfl, Frame.finish s _ false⟩

/-- Settles O48: the key found is the lowest held one, and its number fits a register. -/
theorem ldKeyTakesTheLowestHeldKey : Obligations.LdKeyTakesTheLowestHeldKey := by
  intro x s k hk hheld hlower
  have hlowest : s.lowestKey = some k := (s.lowestKey_eq_some k).2 ⟨hk, hheld, hlower⟩
  refine ⟨_, exec_ldKey_of_some x hlowest, ?_, rfl, rfl, Frame.writeV s _ _ x _⟩
  rw [State.finish_readV, State.readV_writeV_self, BitVec.toNat_ofNat, Nat.mod_eq_of_lt (by omega)]

/-- Settles O49: with no key to find the directive is `Wait`, which leaves `pc` where it is (R113). -/
theorem ldKeyWaitsForAKey : Obligations.LdKeyWaitsForAKey := by
  intro x s hnone
  exact exec_ldKey_of_none x (s.lowestKey_eq_none.2 hnone)

/-- Settles O50: each move writes one byte, read before the write, and nothing else. -/
theorem timerMovesCopy : Obligations.TimerMovesCopy := by
  intro x s
  refine ⟨⟨_, exec_ldDtVx x, ?_⟩, ⟨_, exec_ldVxDt x, ?_⟩, ⟨_, exec_ldStVx x, ?_⟩⟩
  · exact ⟨rfl, rfl, rfl, (Effect.delayTimer _).frame_finish _ _⟩
  · exact ⟨State.readV_writeV_self s x s.dt, rfl, rfl, Frame.writeV s _ _ x _⟩
  · exact ⟨rfl, rfl, rfl, (Effect.soundTimer _).frame_finish _ _⟩

end Sys2Proof

/-! PROOF. The one condition under which each instruction takes a fault, and that a latch an instruction sets is that fault
taken and nothing else; the obligations of 60_exceptions.md. Settles O55 and O56. -/

namespace Sys2Proof.Machine

variable {i : Instr} {s t : State}

/-- The fault an instruction may take in a state, under its condition there (R205, R210). -/
def Raises (i : Instr) (s : State) (k : FaultKind) : Prop :=
  match i with
  | .call _ => k = .stackOverflow ∧ s.sp.toNat = 16
  | .ret => k = .stackUnderflow ∧ s.sp.toNat = 0
  | .storeRegs x | .loadRegs x => k = .dataRange ∧ s.i.toNat + x.toNat > 0xFFF
  | .drw _ _ n => k = .dataRange ∧ n.toNat > 0 ∧ s.i.toNat + n.toNat - 1 > 0xFFF
  | .skp x | .sknp x => k = .keyIndex ∧ (s.readV x).toNat > 15
  | _ => False

/-- An instruction of a running machine that ends with the latch set took its own fault, under its own condition. The
completed end of each instruction leaves the latch clear. -/
theorem exec_latched (hf : s.fault = 0#3) (h : exec i s = .next t) (ht : t.fault ≠ 0#3) :
    ∃ k, Raises i s k ∧ t = s.latchFault k := by
  cases i with
  | call a =>
    obtain ⟨hsp, rfl⟩ | ⟨_, rfl⟩ := exec_call_cases h
    · exact ⟨_, ⟨rfl, hsp⟩, rfl⟩
    · exact absurd hf ht
  | ret =>
    obtain ⟨hsp, rfl⟩ | ⟨_, _, rfl⟩ := exec_ret_cases h
    · exact ⟨_, ⟨rfl, hsp⟩, rfl⟩
    · exact absurd hf ht
  | storeRegs x =>
    obtain ⟨hi, rfl⟩ | ⟨_, rfl⟩ := exec_storeRegs_cases h
    · exact ⟨_, ⟨rfl, hi⟩, rfl⟩
    · exact absurd hf ht
  | loadRegs x =>
    obtain ⟨hi, rfl⟩ | ⟨_, rfl⟩ := exec_loadRegs_cases h
    · exact ⟨_, ⟨rfl, hi⟩, rfl⟩
    · exact absurd ((State.loadedRegs_fault ..).trans hf) ht
  | drw x y n =>
    obtain ⟨hn, hi, rfl⟩ | ⟨_, rfl⟩ := exec_drw_cases h
    · exact ⟨_, ⟨rfl, hn, hi⟩, rfl⟩
    · exact absurd hf ht
  | skp x =>
    obtain ⟨hx, rfl⟩ | ⟨_, rfl⟩ := exec_skp_cases h
    · exact ⟨_, ⟨rfl, hx⟩, rfl⟩
    · exact absurd hf ht
  | sknp x =>
    obtain ⟨hx, rfl⟩ | ⟨_, rfl⟩ := exec_sknp_cases h
    · exact ⟨_, ⟨rfl, hx⟩, rfl⟩
    · exact absurd hf ht
  | ldKey x =>
    obtain ⟨_, rfl⟩ | ⟨_, _, rfl⟩ := exec_ldKey_cases h
    · exact absurd hf ht
    · exact absurd hf ht
  | unnamed8xy1 x y | unnamed8xy7 x y | unnamed8xyE x y => cases h
  | _ =>
    cases h
    exact absurd hf ht

end Sys2Proof.Machine

/-! ### The obligations of the exceptions -/

namespace Sys2Proof

open Machine

/-- Settles O55: by the instruction, whose only fault and only condition `Raises` names. -/
theorem eachInstructionRaisesOnlyItsOwnFault : Obligations.EachInstructionRaisesOnlyItsOwnFault := by
  intro i s t hf h ht
  obtain ⟨k, hk, rfl⟩ := exec_latched hf h ht
  cases i with
  | call a =>
    obtain ⟨rfl, hsp⟩ := hk
    exact .inl ⟨rfl, ⟨a, rfl⟩, hsp⟩
  | ret =>
    obtain ⟨rfl, hsp⟩ := hk
    exact .inr (.inl ⟨rfl, rfl, hsp⟩)
  | storeRegs x =>
    obtain ⟨rfl, hi⟩ := hk
    exact .inr (.inr (.inl ⟨rfl, x, .inl rfl, hi⟩))
  | loadRegs x =>
    obtain ⟨rfl, hi⟩ := hk
    exact .inr (.inr (.inl ⟨rfl, x, .inr rfl, hi⟩))
  | drw x y n =>
    obtain ⟨rfl, hn, hi⟩ := hk
    exact .inr (.inr (.inr (.inl ⟨rfl, x, y, n, rfl, hn, hi⟩)))
  | skp x =>
    obtain ⟨rfl, hx⟩ := hk
    exact .inr (.inr (.inr (.inr ⟨rfl, x, .inl rfl, hx⟩)))
  | sknp x =>
    obtain ⟨rfl, hx⟩ := hk
    exact .inr (.inr (.inr (.inr ⟨rfl, x, .inr rfl, hx⟩)))
  | _ => exact hk.elim

/-- Settles O56: the latch was set at the fetch or by the executed instruction, and both take a fault and do
nothing else. -/
theorem faultsArePrecise : Obligations.FaultsArePrecise := by
  intro s t rest hn hf h ht
  obtain ⟨hlatched, _⟩ | ⟨_, _, rfl⟩ | ⟨_, _, he⟩ := step_nextIsStep_cases hn h
  · exact absurd hf hlatched
  · exact ⟨rfl, FaultKind.code_le_five _⟩
  · obtain ⟨k, _, rfl⟩ := exec_latched (s := { s with loadDone := true, events := rest }) hf he ht
    exact ⟨rfl, k.code_le_five⟩

end Sys2Proof

/-! PROOF. What a LOAD answers in and out of its window, and what memory holds after it (70_reset_and_hazards.md R233,
R234). Settles O16 and O17. -/

namespace Sys2Proof.Machine

variable {s : State} {bytes : List Byte}

/-! ### The three answers of LOAD -/

theorem loadEvent_of_fits (hl : s.loadDone = false) (hb : bytes.length ≤ 3584) :
    loadEvent bytes s = .next { s with mem := s.mem.writeBytes 0x200 bytes, loadDone := true } := by
  rw [loadEvent, if_neg (ne_true_of_eq_false hl)]
  exact if_pos hb

theorem loadEvent_of_loadDone (hl : s.loadDone = true) : loadEvent bytes s = .refused .loadOutOfOrder :=
  if_pos hl

theorem loadEvent_of_too_long (hl : s.loadDone = false) (hb : bytes.length > 3584) :
    loadEvent bytes s = .refused .loadTooLong := by
  rw [loadEvent, if_neg (ne_true_of_eq_false hl)]
  exact if_neg (Nat.not_le_of_lt hb)

/-! ### Memory after bytes are written -/

theorem Memory.read_writeBytes_getElem (m : Memory) (a k : Nat) (hb : a + bytes.length ≤ 4096)
    (hk : k < bytes.length) : (m.writeBytes a bytes).read (a + k) = bytes[k] := by
  rw [Memory.read_writeBytes bytes m a (a + k) hb, dif_pos (by omega)]
  simp

theorem Memory.read_writeBytes_outside (m : Memory) (a b : Nat) (hb : a + bytes.length ≤ 4096)
    (ho : b < a ∨ a + bytes.length ≤ b) : (m.writeBytes a bytes).read b = m.read b := by
  rw [Memory.read_writeBytes bytes m a b hb, dif_neg (by omega)]

end Sys2Proof.Machine

/-! ### The obligations of LOAD -/

namespace Sys2Proof

open Machine

/-- Settles O16: the bytes from 0x200 on end inside memory, so each is read back and no other address is written. -/
theorem loadCopiesTheProgram : Obligations.LoadCopiesTheProgram := by
  intro s bytes rest he hl hlen
  have hfit : 0x200 + bytes.length ≤ 4096 := by omega
  refine ⟨{ s with mem := s.mem.writeBytes 0x200 bytes, loadDone := true, events := rest }, ?_, ?_, ?_, rfl⟩
  · exact (step_of_events_cons he).trans (loadEvent_of_fits (s := { s with events := rest }) hl hlen)
  · exact fun k hk => Memory.read_writeBytes_getElem s.mem 0x200 k hfit hk
  · exact fun a ha => Memory.read_writeBytes_outside s.mem 0x200 a hfit ha

/-- Settles O17: the window is checked first, then the length. -/
theorem loadOutOfPlaceIsRefused : Obligations.LoadOutOfPlaceIsRefused := by
  intro s bytes rest he
  rw [step_of_events_cons he]
  exact ⟨loadEvent_of_loadDone (s := { s with events := rest }),
    loadEvent_of_too_long (s := { s with events := rest })⟩

end Sys2Proof

/-! PROOF. Under its own condition each faulting instruction takes its fault, and what registers, stack, memory, screen and
keys hold after RESET (70_reset_and_hazards.md R231). Settles O21, O38, O47, O15 and O58. -/

namespace Sys2Proof.Machine

variable {i : Instr} {s : State} {k : FaultKind}

/-! ### The fault taken (R201, R202, R204, R207) -/

/-- A transfer of V0 to Vx ends at `I + x`, so it overruns where that address is outside memory. -/
theorem withTransfer_regCount_of_overrun {x : Reg} (f : Nat → Result) (hi : s.i.toNat + x.toNat > 0xFFF) :
    withTransfer (regCount x) s f = .next (s.latchFault .dataRange) :=
  withTransfer_of_overrun s (regCount x) f (Nat.succ_ne_zero _) (by rw [regCount]; omega)

/-- The converse of `exec_latched`: where an instruction's fault condition holds, it takes that fault and does nothing
else, whatever the latch was. -/
theorem exec_of_raises (h : Raises i s k) : exec i s = .next (s.latchFault k) := by
  cases i with
  | call a =>
    obtain ⟨rfl, hsp⟩ := h
    exact if_pos (BitVec.eq_of_toNat_eq hsp)
  | ret =>
    obtain ⟨rfl, hsp⟩ := h
    exact if_pos (BitVec.eq_of_toNat_eq hsp)
  | storeRegs x =>
    obtain ⟨rfl, hi⟩ := h
    rw [exec, execStoreRegs, withTransfer_regCount_of_overrun _ hi]
  | loadRegs x =>
    obtain ⟨rfl, hi⟩ := h
    rw [exec, execLoadRegs, withTransfer_regCount_of_overrun _ hi]
  | drw x y n =>
    obtain ⟨rfl, hn, hi⟩ := h
    rw [exec, execDrw, withTransfer_of_overrun s n.toNat _ (Nat.ne_of_gt hn) (by omega)]
  | skp x =>
    obtain ⟨rfl, hx⟩ := h
    rw [exec, execSkp, withKeyIndex_of_high s x _ hx]
  | sknp x =>
    obtain ⟨rfl, hx⟩ := h
    rw [exec, execSknp, withKeyIndex_of_high s x _ hx]
  | _ => exact h.elim

/-! ### The reset values, as reads (R231) -/

@[simp] theorem State.reset_readV (r : Reg) : State.reset.readV r = 0x00#8 := Vector.getElem_replicate _

@[simp] theorem State.reset_stack_getElem (k : Fin 16) : State.reset.stack[k.val] = 0x0000#16 :=
  Vector.getElem_replicate _

@[simp] theorem State.reset_mem_read (a : Nat) : State.reset.mem.read a = 0x00#8 := rfl

@[simp] theorem State.reset_fb_pixel (r : Fin 32) (c : Fin 64) : State.reset.fb.pixel r c = false :=
  Screen.pixel_cleared r c

@[simp] theorem State.reset_keyHeld (j : Nat) : State.reset.keyHeld j = false := BitVec.getLsbD_zero

end Sys2Proof.Machine

/-! ### The obligations of the remaining faults and of RESET -/

namespace Sys2Proof

open Machine

/-- Settles O21: the two limits of the depth are the fault conditions of CALL and RET. -/
theorem callAndRetFaultAtTheDepthLimits : Obligations.CallAndRetFaultAtTheDepthLimits := by
  constructor
  · intro a s hsp
    exact exec_of_raises (k := .stackOverflow) ⟨rfl, hsp⟩
  · intro s hsp
    exact exec_of_raises (k := .stackUnderflow) ⟨rfl, hsp⟩

/-- Settles O38: a last address above 0xFFF is the fault condition of all three instructions; a sprite of no byte is
excluded. -/
theorem transfersPastMemoryFault : Obligations.TransfersPastMemoryFault := by
  constructor
  · intro x s hi
    exact ⟨exec_of_raises (i := .storeRegs x) (k := .dataRange) ⟨rfl, hi⟩,
      exec_of_raises (i := .loadRegs x) (k := .dataRange) ⟨rfl, hi⟩⟩
  · intro x y n s hn hi
    exact exec_of_raises (k := .dataRange) ⟨rfl, hn, hi⟩

/-- Settles O47: a register above 15 is the fault condition of both key skips. -/
theorem keyNumberAboveFifteenFaults : Obligations.KeyNumberAboveFifteenFaults := by
  intro x s hx
  exact ⟨exec_of_raises (i := .skp x) (k := .keyIndex) ⟨rfl, hx⟩,
    exec_of_raises (i := .sknp x) (k := .keyIndex) ⟨rfl, hx⟩⟩

/-- Settles O15: the state after the event is the reset state with the rest of the schedule, whatever `s` was. -/
theorem resetSetsEveryPieceOfState : Obligations.ResetSetsEveryPieceOfState := by
  intro s rest he
  exact ⟨{ State.reset with events := rest }, step_of_events_cons he, State.reset_readV, rfl, rfl, rfl,
    State.reset_stack_getElem, rfl, rfl, State.reset_mem_read, State.reset_fb_pixel, State.reset_keyHeld, rfl, rfl, rfl,
    rfl⟩

/-- Settles O58: the invariant does not look at the schedule. -/
theorem invariantHoldsAtReset : Obligations.InvariantHoldsAtReset := by
  intro schedule
  exact State.reset_inv.of_same rfl rfl rfl rfl rfl rfl

end Sys2Proof
